-- ==== Sys2Proof/Word.lean ====
section
/-! DEFINITION. The word types of the CAE256 core and their plainest arithmetic (00_scope.md R6, R8, R11). -/

namespace Sys2Proof

/-- An unsigned 8-bit byte, `u8` (R8). -/
abbrev Byte := BitVec 8

/-- An unsigned 32-bit word, `u32` (R8): a bus transfer, a command word, a length register. -/
abbrev Word := BitVec 32

/-- A host bus byte address, ADDR_BITS = 18 bits (R7, R38). -/
abbrev Addr := BitVec 18

/-- A 16-byte block, BLOCK_BYTES = 16 (R6). Byte `i` stands at row `i mod 4` and column `i div 4` (R11). -/
abbrev Block := Vector Byte 16

/-- A 32-byte key, KEY_BYTES = 32 (R6, R17). -/
abbrev Key := Vector Byte 32

/-- A 240-byte key schedule, RK_BYTES = 240: round key `r` is bytes `16r` to `16r + 15` (R6, R21). -/
abbrev Schedule := Vector Byte 240

/-- A 4-byte group of the key schedule; `t0` is its first byte (R84). -/
structure KeyWord where
  t0 : Byte
  t1 : Byte
  t2 : Byte
  t3 : Byte
deriving DecidableEq, Repr

/-- `t ^ u` of R84: byte by byte. -/
def KeyWord.xor (t u : KeyWord) : KeyWord :=
  ⟨t.t0 ^^^ u.t0, t.t1 ^^^ u.t1, t.t2 ^^^ u.t2, t.t3 ^^^ u.t3⟩

/-- Sixteen zero bytes, written `0^16` in the spec (R9). -/
def zeroBlock : Block := Vector.replicate 16 0

end Sys2Proof
end

