-- ==== Sys2Proof/Config.lean ====
section
/-! DEFINITION. What an implementation fixes (00_scope.md R7, R13) and the values the spec leaves free
(10_state.md R37, 20_memory.md R50, 93_implementation_defined.md U1 to U6). An opaque constant has no body:
nothing can be proved of its value. -/

namespace Sys2Proof.Config

/-- The number of 16-byte blocks each buffer holds, less one. OPEN (R7): every value is admitted. -/
opaque bufBlocks : Fin 4096

/-- BUF_BYTES, the capacity of INBUF and of OUTBUF (R7): any multiple of 16 from 16 to 65536. See log entry 2. -/
def bufBytes : Nat := 16 * (bufBlocks.val + 1)

/-- FREE VALUE. The byte that draw number `n` of an unspecified INBUF or OUTBUF byte gives (R37, U1 to U3). See log entry 3. -/
opaque freeByte : Nat → Byte

/-- FREE VALUE. The word that draw number `n` of a bus read while BUSY = 1 gives at an address other than STATUS
(R50, U4). See log entry 4. -/
opaque freeWord : Nat → Word

/-- FREE VALUE. LATENCY seen from the bus (R7, R65, R148, U5): how many turns the host has between the acceptance that
makes draw number `n` and its completion. It is finite, and nothing else is known of it. See log entry 5. -/
opaque turnsWhileBusy : Nat → Nat

end Sys2Proof.Config
end

