-- ==== Sys2Proof/Syntax.lean ====
section
/-! DEFINITION. The 20 commands of the opcode map (30_encoding.md R61): one constructor per row of the table. -/

namespace Sys2Proof

/-- A command. All operands but ADDRK's round index come from registers (R59, R60). -/
inductive Instr where
  /-- 0x00, R120 -/
  | nop
  /-- 0x01, R121 -/
  | clrstat
  /-- 0x10, R75 -/
  | gfmul
  /-- 0x11, R76 -/
  | xtime
  /-- 0x12, R81 -/
  | sbox
  /-- 0x13, R82 -/
  | invsbox
  /-- 0x20, R86 -/
  | keyexp
  /-- 0x30, R96 -/
  | subbytes
  /-- 0x31, R97 -/
  | shiftrows
  /-- 0x32, R98 -/
  | mixcolumns
  /-- 0x33, R99: `r` is the RIDX field, the only immediate of the encoding (R59) -/
  | addrk (r : BitVec 4)
  /-- 0x34, R100 -/
  | invsubbytes
  /-- 0x35, R101 -/
  | invshiftrows
  /-- 0x36, R102 -/
  | invmixcolumns
  /-- 0x40, R107 -/
  | encblock
  /-- 0x41, R108 -/
  | decblock
  /-- 0x50, R114 -/
  | cbcenc
  /-- 0x51, R115 -/
  | cbcdec
  /-- 0x52, R116 -/
  | pad
  /-- 0x53, R117 -/
  | unpad
deriving DecidableEq, Repr

end Sys2Proof
end

