-- ==== Sys2Proof/WellFormed.lean ====
section
/-! DEFINITION. Which instruction terms are commands of the hardware. -/

namespace Sys2Proof

/-- The checks on a term. There is one: ADDRK's round index is 0 to 14, because the schedule has round keys
"indexed 0..14" (R59, R62). -/
def Instr.check : Instr → Bool
  | .nop => true
  | .clrstat => true
  | .gfmul => true
  | .xtime => true
  | .sbox => true
  | .invsbox => true
  | .keyexp => true
  | .subbytes => true
  | .shiftrows => true
  | .mixcolumns => true
  | .addrk r => decide (r.toNat ≤ 14)
  | .invsubbytes => true
  | .invshiftrows => true
  | .invmixcolumns => true
  | .encblock => true
  | .decblock => true
  | .cbcenc => true
  | .cbcdec => true
  | .pad => true
  | .unpad => true

/-- The term is a command of the hardware. -/
abbrev Instr.WellFormed (i : Instr) : Prop := i.check = true

end Sys2Proof
end

