-- ==== Sys2Proof/Decode.lean ====
section
/-! DEFINITION. The decoder of 30_encoding.md R62, total on every 32-bit word and rejecting by name, and after it the
encoder of R57 and R61. -/

namespace Sys2Proof

/-- Why a command word is ILLEGAL: the four cases of R63 and R126. The hardware does not record which one applied. -/
inductive Illegal where
  /-- CMD[31:12] is not 0 -/
  | reservedBits
  /-- opcode 0x33 with RIDX = 15 -/
  | roundIndex
  /-- an opcode other than 0x33 with RIDX not 0 -/
  | strayRoundIndex
  /-- an opcode that the table of R61 does not list -/
  | unassignedOpcode
deriving DecidableEq, Repr

/-- What `decode` answers: `Command | ILLEGAL` (R62). -/
inductive Decoded where
  | command (i : Instr)
  | illegal (why : Illegal)
deriving DecidableEq, Repr

/-- The OPCODE field, CMD[7:0] (R57, R58). -/
def opcodeField (w : Word) : Byte := w.extractLsb' 0 8

/-- The RIDX field, CMD[11:8] (R57, R59). -/
def ridxField (w : Word) : BitVec 4 := w.extractLsb' 8 4

/-- The RSV field, CMD[31:12] (R57). -/
def rsvField (w : Word) : BitVec 20 := w.extractLsb' 12 20

/-- The rows of R61 whose opcode is not ADDRK's. -/
def plainCommand (op : Byte) : Option Instr :=
  match op.toNat with
  | 0x00 => some .nop
  | 0x01 => some .clrstat
  | 0x10 => some .gfmul
  | 0x11 => some .xtime
  | 0x12 => some .sbox
  | 0x13 => some .invsbox
  | 0x20 => some .keyexp
  | 0x30 => some .subbytes
  | 0x31 => some .shiftrows
  | 0x32 => some .mixcolumns
  | 0x34 => some .invsubbytes
  | 0x35 => some .invshiftrows
  | 0x36 => some .invmixcolumns
  | 0x40 => some .encblock
  | 0x41 => some .decblock
  | 0x50 => some .cbcenc
  | 0x51 => some .cbcdec
  | 0x52 => some .pad
  | 0x53 => some .unpad
  | _ => none

/-- `decode` of R62, in the order of its tests. -/
def decode (w : Word) : Decoded :=
  if rsvField w ≠ 0 then .illegal .reservedBits
  else if opcodeField w = 0x33 then
    if (ridxField w).toNat ≤ 14 then .command (.addrk (ridxField w)) else .illegal .roundIndex
  else if ridxField w ≠ 0 then .illegal .strayRoundIndex
  else
    match plainCommand (opcodeField w) with
    | some i => .command i
    | none => .illegal .unassignedOpcode

/-- The OPCODE of each command (R61). -/
def opcodeOf : Instr → Byte
  | .nop => 0x00
  | .clrstat => 0x01
  | .gfmul => 0x10
  | .xtime => 0x11
  | .sbox => 0x12
  | .invsbox => 0x13
  | .keyexp => 0x20
  | .subbytes => 0x30
  | .shiftrows => 0x31
  | .mixcolumns => 0x32
  | .addrk _ => 0x33
  | .invsubbytes => 0x34
  | .invshiftrows => 0x35
  | .invmixcolumns => 0x36
  | .encblock => 0x40
  | .decblock => 0x41
  | .cbcenc => 0x50
  | .cbcdec => 0x51
  | .pad => 0x52
  | .unpad => 0x53

/-- The RIDX of each command: 0 but for ADDRK (R59). -/
def ridxOf : Instr → BitVec 4
  | .addrk r => r
  | _ => 0

/-- The word of a command: RSV = 0, RIDX, OPCODE (R57, R61). -/
def encode (i : Instr) : Word := (opcodeOf i).setWidth 32 ||| (ridxOf i).setWidth 32 <<< 8

/-- The instruction read from a row's word `w` of `nbits` bits, numbered as the opcode table numbers them. A command is
one 32-bit word (R67), so bits above `nbits` are 0 and the table's numbering is the word's own. -/
def decodeTableWord (nbits w : Nat) : Option Instr :=
  match decode (BitVec.ofNat 32 (w % 2 ^ nbits)) with
  | .command i => some i
  | .illegal _ => none

end Sys2Proof
end

