-- ==== Sys2Proof/Machine/State.lean ====
section
/-! DEFINITION. The state of one core as plain data (10_state.md R15), what the host does on the bus, the ways a step
could stop, and the state after reset (10_state.md R36). -/

namespace Sys2Proof.Machine

/-- A byte RAM: (offset, byte) pairs, offsets strictly rising. An offset that is not listed holds an unspecified byte
(R37). -/
abbrev Memory := List Host.Cell

/-- One thing the outside world does to the core. -/
inductive HostEvent where
  /-- `BusWrite(a, d)` (R38) -/
  | write (a : Addr) (d : Word)
  /-- `BusRead(a)` (R38) -/
  | read (a : Addr)
  /-- the polling loop `wait` of R70: read STATUS until its bit 0 is 0 -/
  | wait
  /-- the reset input is asserted (R139) -/
  | resetOn
  /-- the reset input is released (R139) -/
  | resetOff
deriving DecidableEq, Repr

/-- The architectural state of one core: the elements of R15 and nothing else. BUSY is not stored twice: PENDING is none
exactly when BUSY = 0 (R35), and `State.busy` below reads it off. -/
structure Arch where
  /-- KEY (R17) -/
  key : Key
  /-- KEYLEN (R18) -/
  keylen : Word
  /-- STATE (R19) -/
  state : Block
  /-- CHAIN (R20) -/
  chain : Block
  /-- RK (R21) -/
  rk : Schedule
  /-- SCHED_VALID (R22) -/
  schedValid : Bool
  /-- INLEN (R23) -/
  inlen : Word
  /-- OUTLEN (R24) -/
  outlen : Word
  /-- OPND.A (R25) -/
  opndA : Byte
  /-- OPND.B (R25) -/
  opndB : Byte
  /-- RESULT (R26) -/
  result : Byte
  /-- OVERRUN (R29) -/
  overrun : Bool
  /-- ERRCODE (R30) -/
  errcode : BitVec 4
  /-- PENDING: the command latched at acceptance, or none (R35) -/
  pending : Option Word
  /-- INBUF (R32), by byte offset -/
  inbuf : Memory
  /-- OUTBUF (R33), by byte offset -/
  outbuf : Memory
deriving DecidableEq, Repr

/-- What a step is taken of: the core's architectural state, `toArch`, and beside it what stands for the outside world
and the free draws, which R15 does not count to the core (log entry 1). -/
structure State extends Arch where
  /-- MODEL'S OWN: what the host still does, the next first (R12, R53) -/
  host : List HostEvent
  /-- MODEL'S OWN: the level of the reset input (R139) -/
  resetLine : Bool
  /-- MODEL'S OWN: the word the latest bus read returned (R38) -/
  rdata : Option Word
  /-- MODEL'S OWN: how many more turns the host has before the pending command completes (R148) -/
  delay : Nat
  /-- MODEL'S OWN: the number of free draws made so far (R37, R50) -/
  draws : Nat
deriving DecidableEq, Repr

/-- BUSY: 1 from acceptance to completion; PENDING is none exactly when BUSY = 0 (R28, R35). -/
def State.busy (s : State) : Bool := s.pending.isSome

/-- Faults: the core has none. "`fault` and `stuck`, which do not occur here, because no access faults and no step is
ever disabled forever" (93_implementation_defined.md; R38, R52, R132). No constructor, so nobody raises one: safe. -/
inductive Fault where
deriving DecidableEq, Repr

/-- Refusals. -/
inductive Refusal where
  /-- An instruction with no meaning yet. No arm of exec answers it, so nobody raises it. It would be safe: nothing is
  claimed of a refused step. -/
  | notModelled (mnemonic : String)
deriving DecidableEq, Repr

/-- The state right after reset: the table of R36. INBUF and OUTBUF list nothing, so every byte is unspecified. The
model's own fields take the values of log entry 6. -/
def State.reset : State where
  key := Vector.replicate 32 0
  keylen := 0
  state := zeroBlock
  chain := zeroBlock
  rk := Vector.replicate 240 0
  schedValid := false
  inlen := 0
  outlen := 0
  opndA := 0
  opndB := 0
  result := 0
  overrun := false
  errcode := 0
  pending := none
  inbuf := []
  outbuf := []
  host := []
  resetLine := false
  rdata := none
  delay := 0
  draws := 0

end Sys2Proof.Machine
end

