-- ==== Sys2Proof/Machine/Flags.lean ====
section
/-! DEFINITION. The result codes and the STATUS word (10_state.md R27 to R30, 60_exceptions.md R125). -/

namespace Sys2Proof.Machine

/-- Result code 0: the command completed as its rule says (R125). -/
def eNone : BitVec 4 := 0
/-- Result code 1: the word is ILLEGAL (R126). -/
def eIllegal : BitVec 4 := 1
/-- Result code 2: SCHED_VALID = 0 at completion (R127). -/
def eNosched : BitVec 4 := 2
/-- Result code 3: INLEN is too large for the buffers (R128). -/
def eCapacity : BitVec 4 := 3

/-- A flag as bit `n` of a word. -/
def flagBit (b : Bool) (n : Nat) : Word := (BitVec.ofBool b).setWidth 32 <<< n

/-- STATUS (R27): bits 31:8 read 0, ERRCODE in 7:4, bit 3 reads 0, OVERRUN, SCHED_VALID and BUSY in bits 2, 1, 0. -/
def statusWord (s : State) : Word :=
  s.errcode.setWidth 32 <<< 4 ||| flagBit s.overrun 2 ||| flagBit s.schedValid 1 ||| flagBit s.busy 0

end Sys2Proof.Machine
end

