-- ==== Sys2Proof/Machine/Ops.lean ====
section
/-! DEFINITION. The named operations over memory, words and registers that every rule shares, with the end of a
command by a result code (60_exceptions.md R124), which is all that stands for an exception on this core. -/

namespace Sys2Proof.Machine

/-! ### Byte RAM -/

/-- What an unlisted offset of INBUF or OUTBUF reads as: no value, for the spec fixes none (R37, U1 to U3). A reader
that needs a byte draws a free one (`Memory.draw`). -/
def Memory.unlisted : Option Byte := none

/-- The byte held at an offset. -/
def Memory.byte? : Memory → Nat → Option Byte
  | [], _ => Memory.unlisted
  | (a, b) :: m, k => if k = a then some b else Memory.byte? m k

/-- Store one byte, keeping the offsets strictly rising. -/
def Memory.put : Memory → Nat → Byte → Memory
  | [], k, v => [(k, v)]
  | (a, b) :: m, k, v =>
    if k < a then (k, v) :: (a, b) :: m
    else if k = a then (k, v) :: m
    else (a, b) :: Memory.put m k v

/-- The canonical form: offsets strictly rising. A listed byte never equals what an unlisted offset reads as, since that
is no value at all. -/
def Memory.wf : Memory → Bool
  | [] => true
  | [_] => true
  | (a, _) :: (b, v) :: m => decide (a < b) && Memory.wf ((b, v) :: m)

/-- Every listed offset lies below the capacity. -/
def Memory.within (cap : Nat) (m : Memory) : Bool := m.all fun c => decide (c.1 < cap)

/-- The RAM that lists exactly the given bytes, from offset `k` on. -/
def Memory.ofBytes : Nat → List Byte → Memory
  | _, [] => []
  | k, b :: bs => (k, b) :: Memory.ofBytes (k + 1) bs

/-- One byte as a reader sees it: the byte held, or draw number `n` where the byte is unspecified (R37). -/
def Memory.draw (m : Memory) (k n : Nat) : Byte := (m.byte? k).getD (Config.freeByte n)

/-! ### Words on the bus -/

/-- Byte `j` of a bus word: bits [8j+7 : 8j] (R41). -/
def busByte (d : Word) (j : Nat) : Byte := d.extractLsb' (8 * j) 8

/-- The bus word of four bytes, little-endian: `zext_32(b0) | b1 << 8 | b2 << 16 | b3 << 24` (R41). -/
def packWord (b0 b1 b2 b3 : Byte) : Word :=
  b0.setWidth 32 ||| b1.setWidth 32 <<< 8 ||| b2.setWidth 32 <<< 16 ||| b3.setWidth 32 <<< 24

/-- Word `n` of a byte array, as the bus reads it (R41). -/
def windowWord {len : Nat} (v : Vector Byte len) (n : Nat) (h : 4 * n + 3 < len) : Word :=
  packWord v[4 * n] v[4 * n + 1] v[4 * n + 2] v[4 * n + 3]

/-- A byte array after a bus write of `d` to its word `n` (R41). -/
def setWindowWord {len : Nat} (v : Vector Byte len) (n : Nat) (d : Word) : Vector Byte len :=
  Vector.ofFn fun i => if i.val / 4 = n then busByte d (i.val % 4) else v[i]

/-- A RAM after a bus write of `d` to the word at offset `k` (R48). -/
def Memory.putWord (m : Memory) (k : Nat) (d : Word) : Memory :=
  (((m.put k (busByte d 0)).put (k + 1) (busByte d 1)).put (k + 2) (busByte d 2)).put (k + 3) (busByte d 3)

/-! ### Blocks -/

/-- Bytewise exclusive-or of two blocks (R8). -/
def xorBlock (a b : Block) : Block := Vector.ofFn fun i => a[i] ^^^ b[i]

/-- Block `j` of a byte sequence, `B[16j..16j+16)` (R42). -/
def blockAt (B : List Byte) (j : Nat) : Block := Vector.ofFn fun i => B.getD (16 * j + i.val) 0

/-- The whole blocks of a byte sequence, in order (R42). -/
def blocksOf (B : List Byte) : List Block := (List.range (B.length / 16)).map (blockAt B)

/-- Blocks stored one after another (R42). -/
def bytesOf (bs : List Block) : List Byte := bs.flatMap fun b => b.toList

/-! ### Register updates. Each names all that it writes. -/

/-- `ERRCODE <- code`: a command ends with a result code. It is the core's only way to report an error: no state is
saved, no mode changes and control is not transferred (R124, R132), and there is nothing to return from (R133). -/
def raise (code : BitVec 4) (s : State) : State := { s with errcode := code }

/-- `ERRCODE <- E_NONE`. -/
def succeed (s : State) : State := { s with errcode := eNone }

/-- `OVERRUN <- b`. -/
def withOverrun (b : Bool) (s : State) : State := { s with overrun := b }

/-- `RESULT <- b`. -/
def withResult (b : Byte) (s : State) : State := { s with result := b }

/-- `STATE <- b`. -/
def withState (b : Block) (s : State) : State := { s with state := b }

/-- `CHAIN <- b`. -/
def withChain (b : Block) (s : State) : State := { s with chain := b }

/-- `RK <- w; SCHED_VALID <- 1` (R86): the schedule is written whole. -/
def withSchedule (w : Schedule) (s : State) : State := { s with rk := w, schedValid := true }

/-- `OUTLEN <- 0`, the source's empty sequence (R24). -/
def emptyOutput (s : State) : State := { s with outlen := 0 }

/-- `MemWrite(0, len(v), v); OUTLEN <- n`. The RAM keeps the `n` valid bytes only: bytes at offsets `n` and above are
unspecified from then on (R33, R37, U3; log entry 7). -/
def storeOutput (v : List Byte) (n : Nat) (s : State) : State :=
  { s with outbuf := Memory.ofBytes 0 (v.take n), outlen := BitVec.ofNat 32 n }

/-- The free-draw counter moves past `n` draws. -/
def pastDraws (n : Nat) (s : State) : State := { s with draws := s.draws + n }

/-- Acceptance: `PENDING <- d; BUSY <- 1` (R64), with the number of turns the host has before completion. -/
def latch (d : Word) (delay : Nat) (s : State) : State := { s with pending := some d, delay := delay }

/-- The end of a completion: `PENDING <- none; BUSY <- 0` (R65). -/
def goIdle (s : State) : State := { s with pending := none, delay := 0 }

end Sys2Proof.Machine
end

