-- ==== Sys2Proof/Machine/Operands.lean ====
section
/-! DEFINITION. The operand forms (30_encoding.md R60): the OPND register, the input buffer, the schedule's round keys
and words. -/

namespace Sys2Proof.Machine

/-- OPND as the host reads it: A in [7:0], B in [15:8], [31:16] reads 0 (R25). -/
def opndWord (s : State) : Word := s.opndA.setWidth 32 ||| s.opndB.setWidth 32 <<< 8

/-- OPND after a bus write: bits [31:16] are ignored (R25, R48). -/
def withOpnd (d : Word) (s : State) : State := { s with opndA := busByte d 0, opndB := busByte d 1 }

/-- RESULT as the host reads it: [31:8] reads 0 (R26). -/
def resultWord (s : State) : Word := s.result.setWidth 32

/-- `MemRead(addr, n)` (R10): the bytes INBUF[addr..addr+n). An unspecified byte is a free draw (R37, D32). -/
def memRead (s : State) (addr n : Nat) : List Byte :=
  (List.range n).map fun j => s.inbuf.draw (addr + j) (s.draws + j)

/-- The input of a buffer command, INBUF[0..INLEN) (R23, R32). -/
def inputBytes (s : State) : List Byte := memRead s 0 s.inlen.toNat

/-- Byte `i` of round key `r`, RK[16r + i] (R21). -/
def roundKeyByte (w : Schedule) (r : Fin 15) (i : Fin 16) : Byte := w[16 * r.val + i.val]

/-- Schedule word `n`, RK[4n..4n+4) (R21, R43). -/
def scheduleWord (w : Schedule) (n : Fin 60) : KeyWord :=
  ⟨w[4 * n.val], w[4 * n.val + 1], w[4 * n.val + 2], w[4 * n.val + 3]⟩

end Sys2Proof.Machine
end

