-- ==== Sys2Proof/Machine/Bus.lean ====
section
/-! DEFINITION. The host bus: the address map, a read and a write (20_memory.md R38 to R50), acceptance (30_encoding.md
R64) and the reset input (70_reset_and_hazards.md R139, R140). The capacity `cap` is BUF_BYTES. -/

namespace Sys2Proof.Machine

/-- What a word address of the map of R40 names. A window word carries its word number, a buffer word its byte offset. -/
inductive Target where
  | cmd
  | status
  | keylen
  | inlen
  | outlen
  | opnd
  | result
  | key (n : Fin 8)
  | state (n : Fin 4)
  | chain (n : Fin 4)
  | rk (n : Fin 60)
  | inbuf (k : Nat)
  | outbuf (k : Nat)
  | reserved
deriving DecidableEq, Repr

/-- The word a transfer reaches: address bits [1:0] are ignored (R38). -/
def wordAddress (a : Addr) : Addr := a &&& 0x3FFFC

/-- The control registers of the map (R40), at a word address below 0x00100. -/
def controlTarget (n : Nat) : Target :=
  if n = 0x00000 then .cmd
  else if n = 0x00004 then .status
  else if n = 0x00008 then .keylen
  else if n = 0x0000C then .inlen
  else if n = 0x00010 then .outlen
  else if n = 0x00014 then .opnd
  else if n = 0x00018 then .result
  else .reserved

/-- The KEY, STATE, CHAIN and RK windows of the map (R40), at a word address from 0x00100 to 0x0FFFF. -/
def windowTarget (n : Nat) : Target :=
  if n ≤ 0x0011F then .key (Fin.ofNat 8 ((n - 0x00100) / 4))
  else if n ≤ 0x0012F then .state (Fin.ofNat 4 ((n - 0x00120) / 4))
  else if n ≤ 0x0013F then .chain (Fin.ofNat 4 ((n - 0x00130) / 4))
  else if n ≤ 0x001FF then .reserved
  else if n ≤ 0x002EF then .rk (Fin.ofNat 60 ((n - 0x00200) / 4))
  else .reserved

/-- The buffer windows of the map (R40), at a word address from 0x10000 on. -/
def bufferTarget (n : Nat) : Target :=
  if n ≤ 0x1FFFF then .inbuf (n - 0x10000)
  else if n ≤ 0x2FFFF then .outbuf (n - 0x20000)
  else .reserved

/-- The address map (R40), at a word address. -/
def targetAt (n : Nat) : Target :=
  if n < 0x00100 then controlTarget n
  else if n < 0x10000 then windowTarget n
  else bufferTarget n

/-- The target of a bus transfer at byte address `a`. -/
def target (a : Addr) : Target := targetAt (wordAddress a).toNat

/-- Byte `k` of OUTBUF as the host reads it: a byte at an offset at or above OUTLEN is unspecified (R37, R45). -/
def outputByte (s : State) (k n : Nat) : Byte :=
  if k < s.outlen.toNat then s.outbuf.draw k n else Config.freeByte n

/-- The word a bus read returns with BUSY = 0 (R40, R41, R44 to R47). -/
def idleReadWord (cap : Nat) (s : State) : Target → Word
  | .cmd => 0
  | .status => statusWord s
  | .keylen => s.keylen
  | .inlen => s.inlen
  | .outlen => s.outlen
  | .opnd => opndWord s
  | .result => resultWord s
  | .key n => windowWord s.key n.val (by omega)
  | .state n => windowWord s.state n.val (by omega)
  | .chain n => windowWord s.chain n.val (by omega)
  | .rk n => windowWord s.rk n.val (by omega)
  | .inbuf k =>
    if k + 4 ≤ cap then
      packWord (s.inbuf.draw k s.draws) (s.inbuf.draw (k + 1) (s.draws + 1)) (s.inbuf.draw (k + 2) (s.draws + 2))
        (s.inbuf.draw (k + 3) (s.draws + 3))
    else 0
  | .outbuf k =>
    if k + 4 ≤ cap then
      packWord (outputByte s k s.draws) (outputByte s (k + 1) (s.draws + 1)) (outputByte s (k + 2) (s.draws + 2))
        (outputByte s (k + 3) (s.draws + 3))
    else 0
  | .reserved => 0

/-- The word a bus read returns: with BUSY = 1, STATUS is exact and every other address gives any value (R50). -/
def readWord (cap : Nat) (s : State) (a : Addr) : Word :=
  match s.busy, target a with
  | true, .status => statusWord s
  | true, _ => Config.freeWord s.draws
  | false, t => idleReadWord cap s t

/-- `BusRead(a)`: the word goes to the host and no architectural state changes (R48). A read has four draws of its own,
one for each byte that may be unspecified. -/
def busRead (cap : Nat) (a : Addr) (s : State) : State :=
  { s with rdata := some (readWord cap s a), draws := s.draws + 4 }

/-- Acceptance of a command word (R64). How many turns the host has before its completion is a free draw (R148). -/
def accept (d : Word) (s : State) : State := pastDraws 1 (latch d (Config.turnsWhileBusy s.draws) s)

/-- A bus write with BUSY = 0 (R48). Writes to read-only and reserved words are ignored (R45 to R47). -/
def idleWrite (cap : Nat) (d : Word) (s : State) : Target → State
  | .cmd => accept d s
  | .status => s
  | .keylen => { s with keylen := d }
  | .inlen => { s with inlen := d }
  | .outlen => s
  | .opnd => withOpnd d s
  | .result => s
  | .key n => { s with key := setWindowWord s.key n.val d, schedValid := false }
  | .state n => withState (setWindowWord s.state n.val d) s
  | .chain _ => s
  | .rk _ => s
  | .inbuf k => if k + 4 ≤ cap then { s with inbuf := s.inbuf.putWord k d } else s
  | .outbuf _ => s
  | .reserved => s

/-- `BusWrite(a, d)`: with BUSY = 1 its one effect is `OVERRUN <- 1` (R49). -/
def busWrite (cap : Nat) (a : Addr) (d : Word) (s : State) : State :=
  if s.busy then withOverrun true s else idleWrite cap d s (target a)

/-- The address of STATUS (R40). -/
def statusAddr : Addr := 0x00004

/-- Asserting reset (R139, R140): every element of state takes its reset value and a pending command is abandoned. What
is outside the core stays: the host's further accesses, the word it read last, and the count of free draws. -/
def assertReset (s : State) : State :=
  { State.reset with host := s.host, resetLine := true, rdata := s.rdata, draws := s.draws }

/-- The host's turn with reset not asserted: its next access, or none if it has none. A `wait` reads STATUS, and it is done when BUSY = 0 (R70). -/
def hostAccess (cap : Nat) (s : State) : State :=
  match s.host with
  | [] => s
  | .write a d :: rest => busWrite cap a d { s with host := rest }
  | .read a :: rest => busRead cap a { s with host := rest }
  | .wait :: rest => if s.busy then busRead cap statusAddr s else busRead cap statusAddr { s with host := rest }
  | .resetOn :: rest => assertReset { s with host := rest }
  | .resetOff :: rest => { s with host := rest }

/-- The host's turn while reset is asserted: reads return 0 and writes are ignored (R139). -/
def hostAccessInReset (s : State) : State :=
  match s.host with
  | [] => s
  | .write _ _ :: rest => { s with host := rest }
  | .read _ :: rest => { s with host := rest, rdata := some 0 }
  | .wait :: rest => { s with host := rest, rdata := some 0 }
  | .resetOn :: rest => { s with host := rest }
  | .resetOff :: rest => { s with host := rest, resetLine := false }

end Sys2Proof.Machine
end

