-- ==== Sys2Proof/Machine/KeySchedule.lean ====
section
/-! DEFINITION. The AES-256 key schedule expander and its command KEYEXP (42_key_schedule.md). -/

namespace Sys2Proof.Machine

/-- RCON, the 11 round constants (R83). -/
def rcon : List Byte := [0x00, 0x01, 0x02, 0x04, 0x08, 0x10, 0x20, 0x40, 0x80, 0x1B, 0x36]

/-- RotWord (R84): the second byte moves to the first place. -/
def rotWord (t : KeyWord) : KeyWord := ⟨t.t1, t.t2, t.t3, t.t0⟩

/-- SubWord (R84). -/
def subWord (t : KeyWord) : KeyWord := ⟨sbox t.t0, sbox t.t1, sbox t.t2, sbox t.t3⟩

/-- What R85 makes of `w[i-1]` before it is XORed into `w[i-8]`. -/
def scheduleCore (i : Nat) (t : KeyWord) : KeyWord :=
  if i % 8 = 0 then (subWord (rotWord t)).xor ⟨rcon.getD (i / 8) 0, 0, 0, 0⟩
  else if i % 8 = 4 then subWord t
  else t

/-- The words `w[0..8)`, the key copied verbatim (R85). -/
def keyWord (k : Key) (n : Fin 8) : KeyWord :=
  ⟨k[4 * n.val], k[4 * n.val + 1], k[4 * n.val + 2], k[4 * n.val + 3]⟩

/-- Word `i` from the words before it: `w[i] <- w[i-8] ^ t` (R85). -/
def nextWord (ws : List KeyWord) (i : Nat) : KeyWord :=
  (ws.getD (i - 8) ⟨0, 0, 0, 0⟩).xor (scheduleCore i (ws.getD (i - 1) ⟨0, 0, 0, 0⟩))

/-- The first `8 + n` words of the schedule (R85). -/
def expandWords (k : Key) : Nat → List KeyWord
  | 0 => [keyWord k 0, keyWord k 1, keyWord k 2, keyWord k 3, keyWord k 4, keyWord k 5, keyWord k 6, keyWord k 7]
  | n + 1 => expandWords k n ++ [nextWord (expandWords k n) (n + 8)]

/-- Byte `j` of a word, byte 0 first. -/
def KeyWord.byte (t : KeyWord) : Nat → Byte
  | 0 => t.t0
  | 1 => t.t1
  | 2 => t.t2
  | _ => t.t3

/-- `expand` (R85): 60 words as 240 bytes; byte `4n + j` is byte `j` of `w[n]`. -/
def expand (k : Key) : Schedule :=
  let ws := expandWords k 52
  Vector.ofFn fun i => KeyWord.byte (ws.getD (i.val / 4) ⟨0, 0, 0, 0⟩) (i.val % 4)

/-- KEYEXP (R86). KEYLEN is not read. -/
def execKeyexp (s : State) : Host.Outcome State Fault Refusal :=
  .next (succeed (withSchedule (expand s.key) s))

end Sys2Proof.Machine
end

