-- ==== Sys2Proof/Machine/GfMultiplier.lean ====
section
/-! DEFINITION. The GF(2^8) multiplier and its commands GFMUL and XTIME (40_gf_multiplier.md). -/

namespace Sys2Proof.Machine

/-- `xtime` (R71): bit 8 of the 9-bit `a << 1` decides the reduction by 0x1B. -/
def xtime (a : Byte) : Byte :=
  let t : BitVec 9 := a.zeroExtend 9 <<< 1
  if t.getLsbD 8 then t.extractLsb' 0 8 ^^^ 0x1B else t.extractLsb' 0 8

/-- The loop of R72 from iteration `k` on, for `n` more iterations: accumulator `p`, shifting first operand `x`. -/
def gmulLoop (b : Byte) : Nat → Nat → Byte → Byte → Byte
  | 0, _, p, _ => p
  | n + 1, k, p, x => gmulLoop b n (k + 1) (if b.getLsbD k then p ^^^ x else p) (xtime x)

/-- `gmul` (R72): the loop always runs 8 times, bit 0 of `b` first. -/
def gmul (a b : Byte) : Byte := gmulLoop b 8 0 0x00 a

/-- GFMUL (R75). -/
def execGfmul (s : State) : Host.Outcome State Fault Refusal :=
  .next (succeed (withResult (gmul s.opndA s.opndB) s))

/-- XTIME (R76). -/
def execXtime (s : State) : Host.Outcome State Fault Refusal :=
  .next (succeed (withResult (xtime s.opndA) s))

end Sys2Proof.Machine
end

