-- ==== Sys2Proof/Machine/RoundTransform.lean ====
section
/-! DEFINITION. The round transformation and its seven state commands (43_round_transformation.md). Byte `i` of a block
stands at row `i mod 4` and column `i div 4` (R11). -/

namespace Sys2Proof.Machine

/-- SubBytes (R88). -/
def subBytes (s : Block) : Block := Vector.ofFn fun i => sbox s[i]

/-- InvSubBytes (R92). -/
def invSubBytes (s : Block) : Block := Vector.ofFn fun i => invSbox s[i]

/-- ShiftRows (R89): `s'[4c + r] <- s[4*((c + r) mod 4) + r]`. -/
def shiftRows (s : Block) : Block :=
  Vector.ofFn fun i => s[4 * ((i.val / 4 + i.val % 4) % 4) + i.val % 4]

/-- InvShiftRows (R93): `s'[4c + r] <- s[4*((c + 4 - r) mod 4) + r]`. -/
def invShiftRows (s : Block) : Block :=
  Vector.ofFn fun i => s[4 * ((i.val / 4 + 4 - i.val % 4) % 4) + i.val % 4]

/-- Byte `i` of column `c` of a block. -/
def columnByte (s : Block) (c : Fin 4) (i : Fin 4) : Byte := s[4 * c.val + i.val]

/-- Row `r` of R90's product for one column: `2` at lane `r`, `3` at lane `r + 1`, `1` at the other two, cyclically. -/
def mixRow (s : Block) (c r : Fin 4) : Byte :=
  gmul 2 (columnByte s c r) ^^^ gmul 3 (columnByte s c (r + 1)) ^^^ columnByte s c (r + 2) ^^^ columnByte s c (r + 3)

/-- MixColumns (R90): coefficients {2,3,1,1}, entry (r, j) is `coef[(j - r) mod 4]`. -/
def mixColumns (s : Block) : Block :=
  Vector.ofFn fun i => mixRow s ⟨i.val / 4, by omega⟩ ⟨i.val % 4, by omega⟩

/-- Row `r` of R94's product for one column: 14, 11, 13, 9 from lane `r` on, cyclically. -/
def invMixRow (s : Block) (c r : Fin 4) : Byte :=
  gmul 14 (columnByte s c r) ^^^ gmul 11 (columnByte s c (r + 1)) ^^^ gmul 13 (columnByte s c (r + 2))
    ^^^ gmul 9 (columnByte s c (r + 3))

/-- InvMixColumns (R94): coefficients {14,11,13,9}, entry (r, j) is `icoef[(j - r) mod 4]`. -/
def invMixColumns (s : Block) : Block :=
  Vector.ofFn fun i => invMixRow s ⟨i.val / 4, by omega⟩ ⟨i.val % 4, by omega⟩

/-- AddRoundKey (R91), with the schedule `w` in the place of RK: `s'[i] <- s[i] ^ RK[16r + i]`. -/
def addRoundKey (w : Schedule) (r : Fin 15) (s : Block) : Block :=
  Vector.ofFn fun i => s[i] ^^^ roundKeyByte w r i

/-- The template of the state commands: STATE takes a new block and ERRCODE is E_NONE. -/
def transformState (f : Block → Block) (s : State) : State := succeed (withState (f s.state) s)

/-- SUBBYTES (R96). -/
def execSubbytes (s : State) : Host.Outcome State Fault Refusal := .next (transformState subBytes s)

/-- SHIFTROWS (R97). -/
def execShiftrows (s : State) : Host.Outcome State Fault Refusal := .next (transformState shiftRows s)

/-- MIXCOLUMNS (R98). -/
def execMixcolumns (s : State) : Host.Outcome State Fault Refusal := .next (transformState mixColumns s)

/-- ADDRK r (R99). The word of r = 15 is ILLEGAL and decodes to no command, so that term is not well formed; it ends as
such a word does (R126), before SCHED_VALID is looked at (R131). -/
def execAddrk (r : BitVec 4) (s : State) : Host.Outcome State Fault Refusal :=
  if h : r.toNat < 15 then
    if s.schedValid then .next (transformState (addRoundKey s.rk ⟨r.toNat, h⟩) s)
    else .next (raise eNosched s)
  else .next (raise eIllegal s)

/-- INVSUBBYTES (R100). -/
def execInvsubbytes (s : State) : Host.Outcome State Fault Refusal := .next (transformState invSubBytes s)

/-- INVSHIFTROWS (R101). -/
def execInvshiftrows (s : State) : Host.Outcome State Fault Refusal := .next (transformState invShiftRows s)

/-- INVMIXCOLUMNS (R102). -/
def execInvmixcolumns (s : State) : Host.Outcome State Fault Refusal := .next (transformState invMixColumns s)

end Sys2Proof.Machine
end

