-- ==== Sys2Proof/Machine/BlockCipher.lean ====
section
/-! DEFINITION. The 14-round block cipher, forward and inverse, and its commands ENCBLOCK and DECBLOCK
(44_block_cipher.md). -/

namespace Sys2Proof.Machine

/-- One full round of R103. -/
def encRound (w : Schedule) (s : Block) (r : Fin 15) : Block :=
  addRoundKey w r (mixColumns (shiftRows (subBytes s)))

/-- `encryptBlock` (R103): AddRoundKey 0, rounds 1 to 13, then round 14 without MixColumns. -/
def encryptBlock (b : Block) (w : Schedule) : Block :=
  let s := [1, 2, 3, 4, 5, 6, 7, 8, 9, 10, 11, 12, 13].foldl (encRound w) (addRoundKey w 0 b)
  addRoundKey w 14 (shiftRows (subBytes s))

/-- One inner round of R104: InvMixColumns comes after AddRoundKey. -/
def decRound (w : Schedule) (s : Block) (r : Fin 15) : Block :=
  invMixColumns (addRoundKey w r (invSubBytes (invShiftRows s)))

/-- `decryptBlock` (R104): AddRoundKey 14, rounds 13 down to 1, then the last round with round key 0. -/
def decryptBlock (b : Block) (w : Schedule) : Block :=
  let s := [13, 12, 11, 10, 9, 8, 7, 6, 5, 4, 3, 2, 1].foldl (decRound w) (addRoundKey w 14 b)
  addRoundKey w 0 (invSubBytes (invShiftRows s))

/-- ENCBLOCK (R107). -/
def execEncblock (s : State) : Host.Outcome State Fault Refusal :=
  if s.schedValid then .next (transformState (fun b => encryptBlock b s.rk) s)
  else .next (raise eNosched s)

/-- DECBLOCK (R108). -/
def execDecblock (s : State) : Host.Outcome State Fault Refusal :=
  if s.schedValid then .next (transformState (fun b => decryptBlock b s.rk) s)
  else .next (raise eNosched s)

end Sys2Proof.Machine
end

