-- ==== Sys2Proof/Machine/CbcPadding.lean ====
section
/-! DEFINITION. The padding engine and the CBC mode controller, with their commands CBCENC, CBCDEC, PAD and UNPAD
(45_cbc_padding.md). The capacity `cap` is BUF_BYTES, taken as an argument (R7); the meanings give it
`Config.bufBytes`. -/

namespace Sys2Proof.Machine

/-- `pad` (R109): a full extra block where the length is a multiple of 16. -/
def pad (D : List Byte) : List Byte :=
  let p := 16 - D.length % 16
  D ++ List.replicate p (BitVec.ofNat 8 p)

/-- `unpad` (R110): remove the last `p` bytes if they are `p` bytes of value `p`, else leave the sequence as it is. -/
def unpad (D : List Byte) : List Byte :=
  match D.getLast? with
  | none => D
  | some p =>
    let n := D.length
    if 1 ≤ p.toNat ∧ p.toNat ≤ 16 ∧ p.toNat ≤ n ∧ D.drop (n - p.toNat) = List.replicate p.toNat p then
      D.take (n - p.toNat)
    else D

/-- `cbcEncrypt` (R112) over the blocks of the padded buffer, from chaining value `ch` on: the ciphertext blocks and the
last chaining value. -/
def cbcEncrypt (w : Schedule) : Block → List Block → List Block × Block
  | ch, [] => ([], ch)
  | ch, p :: ps =>
    let c := encryptBlock (xorBlock p ch) w
    let rest := cbcEncrypt w c ps
    (c :: rest.1, rest.2)

/-- `cbcDecrypt` (R113) over the ciphertext blocks, from chaining value `ch` and intermediate block `it` on: the
plaintext blocks, the last chaining value and the last intermediate block. -/
def cbcDecrypt (w : Schedule) : Block → Option Block → List Block → List Block × Block × Option Block
  | ch, it, [] => ([], ch, it)
  | ch, _, c :: cs =>
    let i := decryptBlock c w
    let rest := cbcDecrypt w c (some i) cs
    (xorBlock i ch :: rest.1, rest.2)

/-- A buffer command whose INLEN is too large: `OUTLEN <- 0; raise E_CAPACITY()` (R128). -/
def overCapacity (s : State) : State := raise eCapacity (emptyOutput s)

/-- The source's InvalidKeyLength and InvalidCiphertextAlignment: `OUTLEN <- 0; ERRCODE <- E_NONE` (R130). -/
def emptyResult (s : State) : State := succeed (emptyOutput s)

/-- STATE after CBCDEC: the last intermediate block, or unchanged when there was no block (R115). -/
def withLastBlock : Option Block → State → State
  | some b, s => withState b s
  | none, s => s

/-- CBCENC's effect with a valid key (R114). -/
def cbcEncryptInput (s : State) : State :=
  let w := expand s.key
  let r := cbcEncrypt w zeroBlock (blocksOf (pad (inputBytes s)))
  let c := bytesOf r.1
  succeed (pastDraws s.inlen.toNat (storeOutput c c.length (withState r.2 (withChain r.2 (withSchedule w s)))))

/-- CBCENC (R114), capacity before key length (R131). -/
def cbcencAt (cap : Nat) (s : State) : State :=
  if cap ≤ s.inlen.toNat then overCapacity s
  else if s.keylen ≠ 32 then emptyResult s
  else cbcEncryptInput s

/-- CBCDEC's effect with a valid key and an aligned input (R115). -/
def cbcDecryptInput (s : State) : State :=
  let w := expand s.key
  let r := cbcDecrypt w zeroBlock none (blocksOf (inputBytes s))
  let m := bytesOf r.1
  succeed (pastDraws s.inlen.toNat
    (storeOutput m (unpad m).length (withLastBlock r.2.2 (withChain r.2.1 (withSchedule w s)))))

/-- CBCDEC (R115), in the order of R131. -/
def cbcdecAt (cap : Nat) (s : State) : State :=
  if cap < s.inlen.toNat then overCapacity s
  else if s.keylen ≠ 32 ∨ s.inlen.toNat % 16 ≠ 0 then emptyResult s
  else cbcDecryptInput s

/-- PAD (R116). -/
def padAt (cap : Nat) (s : State) : State :=
  if cap ≤ s.inlen.toNat then overCapacity s
  else
    let p := pad (inputBytes s)
    succeed (pastDraws s.inlen.toNat (storeOutput p p.length s))

/-- UNPAD (R117): INLEN need not be a multiple of 16. -/
def unpadAt (cap : Nat) (s : State) : State :=
  if cap < s.inlen.toNat then overCapacity s
  else
    let d := inputBytes s
    succeed (pastDraws s.inlen.toNat (storeOutput d (unpad d).length s))

/-- CBCENC (R114). -/
def execCbcenc (s : State) : Host.Outcome State Fault Refusal := .next (cbcencAt Config.bufBytes s)

/-- CBCDEC (R115). -/
def execCbcdec (s : State) : Host.Outcome State Fault Refusal := .next (cbcdecAt Config.bufBytes s)

/-- PAD (R116). -/
def execPad (s : State) : Host.Outcome State Fault Refusal := .next (padAt Config.bufBytes s)

/-- UNPAD (R117). -/
def execUnpad (s : State) : Host.Outcome State Fault Refusal := .next (unpadAt Config.bufBytes s)

end Sys2Proof.Machine
end

