-- ==== Sys2Proof/Machine/Control.lean ====
section
/-! DEFINITION. The control commands NOP and CLRSTAT (46_control.md). -/

namespace Sys2Proof.Machine

/-- NOP (R120): success is reported, nothing else happens. -/
def execNop (s : State) : Host.Outcome State Fault Refusal := .next (succeed s)

/-- CLRSTAT (R121): the only command that writes OVERRUN. -/
def execClrstat (s : State) : Host.Outcome State Fault Refusal := .next (succeed (withOverrun false s))

end Sys2Proof.Machine
end

