-- ==== Sys2Proof/Machine/Dispatch.lean ====
section
/-! DEFINITION. `execute c` of 30_encoding.md R65: one arm per command, each a call of its meaning. -/

namespace Sys2Proof.Machine

def exec (i : Instr) (s : State) : Host.Outcome State Fault Refusal :=
  match i with
  | .nop => Sys2Proof.Machine.execNop s
  | .clrstat => Sys2Proof.Machine.execClrstat s
  | .gfmul => Sys2Proof.Machine.execGfmul s
  | .xtime => Sys2Proof.Machine.execXtime s
  | .sbox => Sys2Proof.Machine.execSbox s
  | .invsbox => Sys2Proof.Machine.execInvsbox s
  | .keyexp => Sys2Proof.Machine.execKeyexp s
  | .subbytes => Sys2Proof.Machine.execSubbytes s
  | .shiftrows => Sys2Proof.Machine.execShiftrows s
  | .mixcolumns => Sys2Proof.Machine.execMixcolumns s
  | .addrk r => Sys2Proof.Machine.execAddrk r s
  | .invsubbytes => Sys2Proof.Machine.execInvsubbytes s
  | .invshiftrows => Sys2Proof.Machine.execInvshiftrows s
  | .invmixcolumns => Sys2Proof.Machine.execInvmixcolumns s
  | .encblock => Sys2Proof.Machine.execEncblock s
  | .decblock => Sys2Proof.Machine.execDecblock s
  | .cbcenc => Sys2Proof.Machine.execCbcenc s
  | .cbcdec => Sys2Proof.Machine.execCbcdec s
  | .pad => Sys2Proof.Machine.execPad s
  | .unpad => Sys2Proof.Machine.execUnpad s

end Sys2Proof.Machine
end

