-- ==== Sys2Proof/Machine/Engine.lean ====
section
/-! DEFINITION. The command engine (30_encoding.md R65) and whose turn it is (00_scope.md R12, 20_memory.md R53). -/

namespace Sys2Proof.Machine

/-- What completion adds around a meaning: `PENDING <- none; BUSY <- 0` (R65). -/
def thenIdle : Host.Outcome State Fault Refusal → Host.Outcome State Fault Refusal
  | .next s => .next (goIdle s)
  | .fault r => .fault r
  | .refused r => .refused r

/-- Completion of the pending word `w` in one atomic step (R65). -/
def complete (w : Word) (s : State) : Host.Outcome State Fault Refusal :=
  match decode w with
  | .command i => thenIdle (exec i s)
  | .illegal _ => thenIdle (.next (raise eIllegal s))

/-- One step. With reset asserted or no command pending it is the host's turn. With a command pending the engine completes
it once the host has had the drawn number of turns; until then it is the host's turn (R148, log entry 5). -/
def turn (cap : Nat) (s : State) : Host.Outcome State Fault Refusal :=
  if s.resetLine then .next (hostAccessInReset s)
  else
    match s.pending with
    | none => .next (hostAccess cap s)
    | some w =>
      match s.delay with
      | 0 => complete w s
      | n + 1 => .next (hostAccess cap { s with delay := n })

/-- A command word in the place the engine takes its next command from, due at the next step: as after its acceptance
with no turn of the host left before completion. -/
def placeCommand (w : Word) (s : State) : State := { s with pending := some w, delay := 0, resetLine := false }

end Sys2Proof.Machine
end

