-- ==== Sys2Proof/Machine/Step.lean ====
section
/-! DEFINITION. The one step of the machine, and how a word is placed for the next step to run. -/

namespace Sys2Proof.Machine

/-- One step of the core and the outside world, at this implementation's BUF_BYTES. -/
def step (s : State) : Host.Outcome State Fault Refusal := turn Config.bufBytes s

/-- `s` with the command word `w` pending and due, so that the very next step runs it. The core fetches no instruction
(R16, R55): a command is a word latched at acceptance, and this stands for that acceptance (log entry 8). -/
def State.withFetchWord (s : State) (nbits w : Nat) : State :=
  placeCommand (BitVec.ofNat 32 (w % 2 ^ nbits)) s

end Sys2Proof.Machine
end

