-- ==== Sys2Proof/Machine/HostProgram.lean ====
section
/-! DEFINITION. The host assembly syntax (30_encoding.md R68 to R70): lines and pseudo-instructions, and the bus accesses
each expands to. Control flow of a host program runs on the host (R122) and is no part of the core. -/

namespace Sys2Proof.Machine

/-- The register and window names of R40. -/
inductive RegName where
  | cmd | status | keylen | inlen | outlen | opnd | result | key | state | chain | rk | inbuf | outbuf
deriving DecidableEq, Repr

/-- The address a name stands for; a window name stands for its base (R40, R68). -/
def RegName.addr : RegName → Addr
  | .cmd => 0x00000
  | .status => 0x00004
  | .keylen => 0x00008
  | .inlen => 0x0000C
  | .outlen => 0x00010
  | .opnd => 0x00014
  | .result => 0x00018
  | .key => 0x00100
  | .state => 0x00120
  | .chain => 0x00130
  | .rk => 0x00200
  | .inbuf => 0x10000
  | .outbuf => 0x20000

/-- One line of a host program (R68 to R70). `ofs` is the `+offset` of a window word. -/
inductive HostLine where
  | wr (r : RegName) (ofs : Nat) (d : Word)
  | rd (r : RegName) (ofs : Nat)
  | wrAddr (a : Addr) (d : Word)
  | rdAddr (a : Addr)
  | command (i : Instr)
  | wait
  | ldkey (k : Key)
  | ldstate (b : Block)
  | ldin (B : List Byte)
  | rdblk (r : RegName)
deriving DecidableEq, Repr

/-- The address `NAME+offset`. DESIGN CHOICE (log entry 14): R68 gives an offset to a window word only, and no rule says
what an offset past the window, or one to a register's name, stands for; the sum is taken in the 18 address bits, so it
runs on into the addresses above and wraps round to CMD. -/
def RegName.at (r : RegName) (ofs : Nat) : Addr := r.addr + BitVec.ofNat 18 ofs

/-- Word `n` of a byte sequence, packed as R41 packs it; bytes past its end are 0 (R70, `ldin`). -/
def packedWord (B : List Byte) (n : Nat) : Word :=
  packWord (B.getD (4 * n) 0) (B.getD (4 * n + 1) 0) (B.getD (4 * n + 2) 0) (B.getD (4 * n + 3) 0)

/-- Writes of a byte sequence to a window from its base on, `ceil(len/4)` words. DESIGN CHOICE (log entry 14): R70 does
not bound `ldin`; bytes past the window go to the addresses that `RegName.at` gives. -/
def windowWrites (r : RegName) (B : List Byte) : List HostEvent :=
  (List.range ((B.length + 3) / 4)).map fun n => .write (r.at (4 * n)) (packedWord B n)

/-- The bus accesses of a line (R68 to R70). The length that `ldin` writes is taken in INLEN's 32 bits (log entry 14). -/
def HostLine.accesses : HostLine → List HostEvent
  | .wr r ofs d => [.write (r.at ofs) d]
  | .rd r ofs => [.read (r.at ofs)]
  | .wrAddr a d => [.write a d]
  | .rdAddr a => [.read a]
  | .command i => [.write RegName.cmd.addr (encode i), .wait]
  | .wait => [.wait]
  | .ldkey k => windowWrites .key k.toList ++ [.write RegName.keylen.addr 32]
  | .ldstate b => windowWrites .state b.toList
  | .ldin B => windowWrites .inbuf B ++ [.write RegName.inlen.addr (BitVec.ofNat 32 B.length)]
  | .rdblk r => (List.range 4).map fun n => .read (r.at (4 * n))

/-- The bus accesses of a straight-line host program, in the order the host issues them (R53). -/
def hostAccesses (lines : List HostLine) : List HostEvent := lines.flatMap HostLine.accesses

end Sys2Proof.Machine
end

