-- ==== Sys2Proof/Safety.lean ====
section
/-! DEFINITION. What counts as a safe run, in the terms the claims use: who acts next, the invariant of the core, and the
premise on a host that waits (70_reset_and_hazards.md R142). -/

namespace Sys2Proof.Machine

/-- Reset is released and no command is pending: BUSY = 0, so the host's next access takes effect (R48). -/
structure Idle (s : State) : Prop where
  released : s.resetLine = false
  noCommand : s.pending = none

/-- Reset is released, the word `w` is pending and its completion is the next step (R65). -/
structure Due (w : Word) (s : State) : Prop where
  released : s.resetLine = false
  pending : s.pending = some w
  turn : s.delay = 0

/-- Reset is released, a command is pending and the host has `n + 1` turns before its completion: BUSY = 1, and the host's
next access arrives first (R49, R50). -/
structure BusyBefore (n : Nat) (s : State) : Prop where
  released : s.resetLine = false
  pending : s.busy = true
  delay : s.delay = n + 1

/-- `t` has the architectural state of `s`; only the model's own fields may differ (R15). -/
def SameCore (s t : State) : Prop := t.toArch = s.toArch

/-- The invariant of the core. -/
structure Inv (s : State) : Prop where
  /-- SCHED_VALID = 1 says that RK holds expand(KEY) for the present KEY (R22) -/
  schedule : s.schedValid = true → s.rk = expand s.key
  /-- ERRCODE values 4 to 15 are never written (R30, U7) -/
  errcode : s.errcode.toNat ≤ 3
  /-- OUTLEN is at most BUF_BYTES (R24) -/
  outlen : s.outlen.toNat ≤ Config.bufBytes
  /-- every byte of OUTBUF[0..OUTLEN) is a specified one (R33, R146) -/
  output : ∀ k, k < s.outlen.toNat → (s.outbuf.byte? k).isSome = true
  /-- INBUF and OUTBUF keep the canonical form and lie below BUF_BYTES (R32, R33) -/
  inbufForm : s.inbuf.wf = true ∧ s.inbuf.within Config.bufBytes = true
  outbufForm : s.outbuf.wf = true ∧ s.outbuf.within Config.bufBytes = true
  /-- while reset is asserted the core holds its reset state (R139) -/
  reset : s.resetLine = true → SameCore State.reset s

/-- The host's accesses keep R142's rule: a write to CMD is followed by `wait`, or by nothing. -/
def waitsAfterCommands : List HostEvent → Bool
  | [] => true
  | .write a _ :: rest =>
    (wordAddress a != 0 || rest.head? == none || rest.head? == some .wait) && waitsAfterCommands rest
  | .read _ :: rest => waitsAfterCommands rest
  | .wait :: rest => waitsAfterCommands rest
  | .resetOn :: rest => waitsAfterCommands rest
  | .resetOff :: rest => waitsAfterCommands rest

/-- A host that obeys R142 from here on: its next access is a `wait` while BUSY = 1, and every later write to CMD is
followed by one. -/
structure HostWaits (s : State) : Prop where
  next : s.busy = true → s.host = [] ∨ ∃ rest, s.host = .wait :: rest
  later : waitsAfterCommands s.host = true

/-- Commands run one after another, each on the state the one before it leaves. -/
def runCommands : List Instr → State → Host.Outcome State Fault Refusal
  | [], s => .next s
  | i :: is, s =>
    match exec i s with
    | .next t => runCommands is t
    | .fault r => .fault r
    | .refused r => .refused r

/-- Round `n + 1` of R103 as commands, for n = 0 to 12. -/
def fullRound (n : Nat) : List Instr := [.subbytes, .shiftrows, .mixcolumns, .addrk (BitVec.ofNat 4 (n + 1))]

/-- The 56 round commands of R103: ADDRK 0, thirteen full rounds, the last round. -/
def roundsOfEncblock : List Instr :=
  Instr.addrk 0 :: List.append ((List.range 13).flatMap fullRound) [.subbytes, .shiftrows, .addrk 14]

/-- Round `13 - n` of R104 as commands, for n = 0 to 12. -/
def fullInvRound (n : Nat) : List Instr :=
  [.invshiftrows, .invsubbytes, .addrk (BitVec.ofNat 4 (13 - n)), .invmixcolumns]

/-- The round commands of R104, in its order. -/
def roundsOfDecblock : List Instr :=
  Instr.addrk 14 :: List.append ((List.range 13).flatMap fullInvRound) [.invshiftrows, .invsubbytes, .addrk 0]

end Sys2Proof.Machine
end

