-- ==== Sys2Proof/Certificates/Slice0/Obligations.lean ====
section
/-! DEFINITION. The statements for the provers. A title and the rules each rests on stand in OBLIGATIONS.json. -/

open Sys2Proof Sys2Proof.Machine

/-! ### Encoding -/

/-- Words written out from the opcode map (R61) decode to the commands they stand for. -/
def Obligations.OpcodeMapWordsDecode : Prop :=
  decode 0x00000000 = .command .nop ∧ decode 0x00000001 = .command .clrstat ∧
  decode 0x00000011 = .command .xtime ∧ decode 0x00000013 = .command .invsbox ∧
  decode 0x00000020 = .command .keyexp ∧ decode 0x00000E33 = .command (.addrk 14) ∧
  decode 0x00000036 = .command .invmixcolumns ∧ decode 0x00000041 = .command .decblock ∧
  decode 0x00000053 = .command .unpad ∧ decode 0x00000F33 = .illegal .roundIndex ∧
  decode 0x00000131 = .illegal .strayRoundIndex ∧ decode 0x00000002 = .illegal .unassignedOpcode ∧
  decode 0x80000050 = .illegal .reservedBits

/-- A word decodes to a command exactly when it is that well-formed command's encoding (R57, R61, R62). -/
def Obligations.DecodeInvertsEncode : Prop :=
  ∀ (w : Word) (i : Instr), decode w = .command i ↔ (i.WellFormed ∧ encode i = w)

/-- The ILLEGAL words are those of the four causes, and one completes with E_ILLEGAL and nothing else (R126). -/
def Obligations.IllegalWordSetsErrcodeOnly : Prop :=
  ∀ w : Word,
    ((∃ why, decode w = .illegal why) ↔
      (w.extractLsb' 12 20 ≠ 0 ∨
       w.extractLsb' 0 8 ∉ ([0x00, 0x01, 0x10, 0x11, 0x12, 0x13, 0x20, 0x30, 0x31, 0x32, 0x33, 0x34, 0x35, 0x36,
         0x40, 0x41, 0x50, 0x51, 0x52, 0x53] : List Byte) ∨
       (w.extractLsb' 8 4 ≠ 0 ∧ w.extractLsb' 0 8 ≠ 0x33) ∨
       (w.extractLsb' 0 8 = 0x33 ∧ w.extractLsb' 8 4 = 15))) ∧
    ∀ s, Due w s → (∃ why, decode w = .illegal why) →
      step s = .next { s with errcode := 1, pending := none, delay := 0 }

/-! ### The step -/

/-- A due command word that decodes to `i` runs exactly `exec i`, and then PENDING is none and BUSY 0 (R65). Each `exec i`
answers a next state: no arm stops. -/
def Obligations.StepRunsTheDecodedCommand : Prop :=
  ∀ (w : Word) (i : Instr) (s : State), Due w s → decode w = .command i →
    ∃ t, exec i s = .next t ∧ step s = .next { t with pending := none, delay := 0 }

/-- Every state has a step, and it answers a next state: no access faults and no command hangs (R38, R65, R132). -/
def Obligations.EveryStepAnswersNext : Prop :=
  ∀ s : State, ∃ t, step s = .next t

/-- A pending command is gone after at most one step more than the turns the host still has before it, whatever the free
constant `Config.turnsWhileBusy` gave (R65, R148; the model's form of LATENCY: log entry 5). -/
def Obligations.PendingCommandEnds : Prop :=
  ∀ s : State, s.resetLine = false →
    ∃ n t, n ≤ s.delay + 1 ∧ Host.Core.run Sys2Proof.core n s = .next t ∧ t.pending = none

/-- While a command stays pending nothing architectural changes but OVERRUN, which may be set and is not cleared (R29,
R35, R49, R53). -/
def Obligations.PendingInputsAreFrozen : Prop :=
  ∀ s t : State, s.busy = true → t.busy = true → step s = .next t →
    SameCore { s with overrun := t.overrun } t ∧ (s.overrun = true → t.overrun = true)

/-! ### Invariants -/

/-- The state after reset meets the invariant. -/
def Obligations.ResetMeetsInvariant : Prop := Inv State.reset

/-- Every step keeps the invariant. -/
def Obligations.StepKeepsInvariant : Prop :=
  ∀ s t : State, Inv s → step s = .next t → Inv t

/-- A host that waits after each command never loses a write: OVERRUN stays 0 and the host goes on waiting (R142, U16).
`Inv` rules out the states no run reaches in which a command is pending under reset. -/
def Obligations.WaitingHostNeverOverruns : Prop :=
  ∀ s t : State, Inv s → HostWaits s → s.overrun = false → step s = .next t → HostWaits t ∧ t.overrun = false

/-! ### Status flags -/

/-- STATUS lays its fields out as R27 says. -/
def Obligations.StatusWordHoldsItsFields : Prop :=
  ∀ s : State,
    (statusWord s).getLsbD 0 = s.pending.isSome ∧ (statusWord s).getLsbD 1 = s.schedValid ∧
    (statusWord s).getLsbD 2 = s.overrun ∧ (statusWord s).getLsbD 3 = false ∧
    (statusWord s).extractLsb' 4 4 = s.errcode ∧ (statusWord s).extractLsb' 8 24 = 0

/-- SCHED_VALID goes to 0 only by an accepted KEY write or by reset being asserted, and to 1 only in the step that completes
a pending KEYEXP or CBC command (R22). -/
def Obligations.SchedValidHasFewWriters : Prop :=
  ∀ s t : State, step s = .next t →
    (s.schedValid = true → t.schedValid = false →
      (s.resetLine = false ∧ t.resetLine = true ∧ ∃ rest, s.host = .resetOn :: rest) ∨
      (Idle s ∧ ∃ a d rest, s.host = .write a d :: rest ∧
        0x100 ≤ (a &&& 0x3FFFC).toNat ∧ (a &&& 0x3FFFC).toNat ≤ 0x11C)) ∧
    (s.schedValid = false → t.schedValid = true →
      ∃ w, Due w s ∧ t.pending = none ∧ (w = 0x00000020 ∨ w = 0x00000050 ∨ w = 0x00000051))

/-- OVERRUN is set by every bus write while BUSY = 1, whatever its address, and such a write does nothing else. Nothing else
sets it, and only reset being asserted and the completion of a pending CLRSTAT clear it (R29). -/
def Obligations.OverrunSetAndCleared : Prop :=
  (∀ (s : State) (n : Nat) (a : Addr) (d : Word) (rest : List HostEvent), BusyBefore n s →
    s.host = .write a d :: rest → step s = .next { s with overrun := true, host := rest, delay := n }) ∧
  ∀ s t : State, step s = .next t →
    (s.overrun = false → t.overrun = true →
      ∃ n, BusyBefore n s ∧ ∃ a d rest, s.host = .write a d :: rest) ∧
    (s.overrun = true → t.overrun = false →
      (s.resetLine = false ∧ t.resetLine = true ∧ ∃ rest, s.host = .resetOn :: rest) ∨
      (Due 0x00000001 s ∧ t.pending = none))

/-! ### Bus accesses while BUSY = 1 -/

/-- A bus write with BUSY = 1 has one effect, `OVERRUN <- 1` (R49). `host` and `delay` are the model's own fields (log
entries 1, 5). -/
def Obligations.BusyWriteSetsOverrunOnly : Prop :=
  ∀ (s : State) (n : Nat) (a : Addr) (d : Word) (rest : List HostEvent),
    BusyBefore n s → s.host = .write a d :: rest →
      step s = .next { s with overrun := true, host := rest, delay := n }

/-- A bus read with BUSY = 1 gives STATUS exactly and any value elsewhere, and changes nothing (R50). The value
elsewhere is the free constant `Config.freeWord`, of which nothing is known (log entry 4). -/
def Obligations.BusyReadGivesStatusOrAnyValue : Prop :=
  ∀ (s : State) (n : Nat) (a : Addr) (rest : List HostEvent),
    BusyBefore n s → s.host = .read a :: rest →
      step s = .next { s with
        rdata := some (if a &&& 0x3FFFC = 0x00004 then statusWord s else Config.freeWord s.draws)
        host := rest, delay := n, draws := s.draws + 4 }

/-- A write that follows a command's acceptance without a wait is either applied to the state the command's completion
left, or dropped with OVERRUN while the command stays pending as it was accepted; nothing in between (R49, R53, R65). Which
of the two is the free value of log entry 5. -/
def Obligations.RacingWriteIsLateOrDropped : Prop :=
  ∀ (s : State) (w : Word) (a : Addr) (d : Word), Idle s → s.host = [.write 0x00000 w, .write a d] →
    (∃ t u, Host.Core.run Sys2Proof.core 3 s = .next t ∧
      Host.Core.run Sys2Proof.core 2 { s with host := [.write 0x00000 w] } = .next u ∧ u.pending = none ∧
      step { u with host := [.write a d] } = .next t) ∨
    (∃ t u, Host.Core.run Sys2Proof.core 2 s = .next t ∧
      Host.Core.run Sys2Proof.core 1 { s with host := [.write 0x00000 w] } = .next u ∧ u.pending = some w ∧
      t = { u with overrun := true, delay := t.delay })

/-! ### Bus accesses while BUSY = 0 -/

/-- A bus write to CMD with BUSY = 0 accepts any word: PENDING takes it, BUSY is 1, and nothing else changes. With
BUSY = 1 it is not accepted and sets OVERRUN (R64). `delay` and `draws` are the model's own fields (log entries 1, 5). -/
def Obligations.CommandWriteIsAccepted : Prop :=
  ∀ (s : State) (a : Addr) (d : Word) (rest : List HostEvent), s.host = .write a d :: rest → a &&& 0x3FFFC = 0 →
    (Idle s → ∃ t, step s = .next t ∧ t.busy = true ∧
      t = { s with pending := some d, delay := t.delay, host := rest, draws := s.draws + 1 }) ∧
    (∀ n, BusyBefore n s → step s = .next { s with overrun := true, host := rest, delay := n })

/-- Writes to KEYLEN, INLEN and OPND (R18, R23, R25, R48). -/
def Obligations.RegisterWritesTakeEffect : Prop :=
  ∀ (s : State) (a : Addr) (d : Word) (rest : List HostEvent), Idle s → s.host = .write a d :: rest →
    (a &&& 0x3FFFC = 0x00008 → step s = .next { s with keylen := d, host := rest }) ∧
    (a &&& 0x3FFFC = 0x0000C → step s = .next { s with inlen := d, host := rest }) ∧
    (a &&& 0x3FFFC = 0x00014 →
      step s = .next { s with opndA := d.extractLsb' 0 8, opndB := d.extractLsb' 8 8, host := rest })

/-- A write to a KEY word replaces its four bytes, little-endian, and clears SCHED_VALID (R17, R22, R41, R48). -/
def Obligations.KeyWriteClearsSchedValid : Prop :=
  ∀ (s : State) (a : Addr) (d : Word) (rest : List HostEvent) (o : Nat), Idle s → s.host = .write a d :: rest →
    (a &&& 0x3FFFC).toNat = 0x00100 + o → o < 32 →
      ∃ k : Key, step s = .next { s with key := k, schedValid := false, host := rest } ∧
        ∀ i : Fin 32, k[i] = if o ≤ i.val ∧ i.val < o + 4 then d.extractLsb' (8 * (i.val - o)) 8 else s.key[i]

/-- A write to a STATE word replaces its four bytes, little-endian (R19, R41, R48). -/
def Obligations.StateWriteReplacesOneWord : Prop :=
  ∀ (s : State) (a : Addr) (d : Word) (rest : List HostEvent) (o : Nat), Idle s → s.host = .write a d :: rest →
    (a &&& 0x3FFFC).toNat = 0x00120 + o → o < 16 →
      ∃ b : Block, step s = .next { s with state := b, host := rest } ∧
        ∀ i : Fin 16, b[i] = if o ≤ i.val ∧ i.val < o + 4 then d.extractLsb' (8 * (i.val - o)) 8 else s.state[i]

/-- A write to an INBUF word stores its four bytes and leaves every other byte as it was; beyond BUF_BYTES it is
ignored (R32, R41, R44, R48). -/
def Obligations.InbufWriteStoresOneWord : Prop :=
  ∀ (s : State) (a : Addr) (d : Word) (rest : List HostEvent) (o : Nat), Idle s → s.host = .write a d :: rest →
    (a &&& 0x3FFFC).toNat = 0x10000 + o → o < 0x10000 →
      (o + 4 ≤ Config.bufBytes →
        ∃ m : Memory, step s = .next { s with inbuf := m, host := rest } ∧
          ∀ k, m.byte? k =
            if o ≤ k ∧ k < o + 4 then some (d.extractLsb' (8 * (k - o)) 8) else s.inbuf.byte? k) ∧
      (Config.bufBytes < o + 4 → step s = .next { s with host := rest })

/-- Writes to read-only registers and windows and to reserved addresses are ignored (R45, R46, R47). -/
def Obligations.ReadOnlyWritesAreIgnored : Prop :=
  ∀ (s : State) (a : Addr) (d : Word) (rest : List HostEvent), Idle s → s.host = .write a d :: rest →
    (let n := (a &&& 0x3FFFC).toNat
     n = 0x00004 ∨ n = 0x00010 ∨ (0x00018 ≤ n ∧ n < 0x00100) ∨ (0x00130 ≤ n ∧ n < 0x10000) ∨ 0x20000 ≤ n) →
      step s = .next { s with host := rest }

/-- Reads of the control registers and of addresses that read 0 (R18, R23 to R27, R31, R46, R47). -/
def Obligations.RegisterReadsGiveContents : Prop :=
  ∀ (s : State) (a : Addr) (rest : List HostEvent), Idle s → s.host = .read a :: rest →
    ∃ v, step s = .next { s with rdata := some v, host := rest, draws := s.draws + 4 } ∧
      (let n := (a &&& 0x3FFFC).toNat
       (n = 0x00000 → v = 0) ∧ (n = 0x00004 → v = statusWord s) ∧ (n = 0x00008 → v = s.keylen) ∧
       (n = 0x0000C → v = s.inlen) ∧ (n = 0x00010 → v = s.outlen) ∧
       (n = 0x00014 → v.extractLsb' 0 8 = s.opndA ∧ v.extractLsb' 8 8 = s.opndB ∧ v.extractLsb' 16 16 = 0) ∧
       (n = 0x00018 → v.extractLsb' 0 8 = s.result ∧ v.extractLsb' 8 24 = 0) ∧
       ((0x0001C ≤ n ∧ n < 0x00100) ∨ (0x00140 ≤ n ∧ n < 0x00200) ∨ (0x002F0 ≤ n ∧ n < 0x10000) ∨ 0x30000 ≤ n →
          v = 0))

/-- Reads of the KEY, STATE, CHAIN and RK windows give the addressed word, byte `j` in bits [8j+7:8j] (R40, R41). -/
def Obligations.WindowReadsAreLittleEndian : Prop :=
  ∀ (s : State) (a : Addr) (rest : List HostEvent) (j : Fin 4), Idle s → s.host = .read a :: rest →
    ∃ v, step s = .next { s with rdata := some v, host := rest, draws := s.draws + 4 } ∧
      (∀ i : Fin 32, (a &&& 0x3FFFC).toNat + j.val = 0x00100 + i.val → v.extractLsb' (8 * j.val) 8 = s.key[i]) ∧
      (∀ i : Fin 16, (a &&& 0x3FFFC).toNat + j.val = 0x00120 + i.val → v.extractLsb' (8 * j.val) 8 = s.state[i]) ∧
      (∀ i : Fin 16, (a &&& 0x3FFFC).toNat + j.val = 0x00130 + i.val → v.extractLsb' (8 * j.val) 8 = s.chain[i]) ∧
      (∀ i : Fin 240, (a &&& 0x3FFFC).toNat + j.val = 0x00200 + i.val → v.extractLsb' (8 * j.val) 8 = s.rk[i])

/-- Reads of the INBUF and OUTBUF windows give each specified byte, and 0 beyond BUF_BYTES (R41, R44, R45). Nothing is
said of an unspecified byte (R37). -/
def Obligations.BufferReadsGiveSpecifiedBytes : Prop :=
  ∀ (s : State) (a : Addr) (rest : List HostEvent) (o : Nat), Idle s → s.host = .read a :: rest → o < 0x10000 →
    ∃ v, step s = .next { s with rdata := some v, host := rest, draws := s.draws + 4 } ∧
      ((a &&& 0x3FFFC).toNat = 0x10000 + o →
        (Config.bufBytes < o + 4 → v = 0) ∧
        (o + 4 ≤ Config.bufBytes → ∀ (j : Fin 4) (b : Byte), s.inbuf.byte? (o + j.val) = some b →
          v.extractLsb' (8 * j.val) 8 = b)) ∧
      ((a &&& 0x3FFFC).toNat = 0x20000 + o →
        (Config.bufBytes < o + 4 → v = 0) ∧
        (o + 4 ≤ Config.bufBytes → ∀ (j : Fin 4) (b : Byte), o + j.val < s.outlen.toNat →
          s.outbuf.byte? (o + j.val) = some b → v.extractLsb' (8 * j.val) 8 = b))

/-- A word written to KEYLEN, INLEN, KEY, STATE or INBUF with BUSY = 0 reads back as written (R41, R48, R53). -/
def Obligations.WrittenWordReadsBack : Prop :=
  ∀ (s : State) (a : Addr) (d : Word), Idle s → s.host = [.write a d, .read a] →
    (let n := (a &&& 0x3FFFC).toNat
     n = 0x00008 ∨ n = 0x0000C ∨ (0x00100 ≤ n ∧ n < 0x00130) ∨ (0x10000 ≤ n ∧ n + 4 ≤ 0x10000 + Config.bufBytes)) →
      ∃ t, Host.Core.run Sys2Proof.core 2 s = .next t ∧ t.rdata = some d

/-- Address bits [1:0] have no effect on any access, whenever it is the host's turn (R38). -/
def Obligations.LowAddressBitsAreIgnored : Prop :=
  ∀ (s : State) (a : Addr) (d : Word) (rest : List HostEvent),
    s.resetLine = true ∨ s.pending = none ∨ s.delay ≠ 0 →
    step { s with host := .write a d :: rest } = step { s with host := .write (a &&& 0x3FFFC) d :: rest } ∧
    step { s with host := .read a :: rest } = step { s with host := .read (a &&& 0x3FFFC) :: rest }

/-- `wait` reads STATUS again and again while BUSY = 1, and is over with the first read that finds BUSY = 0 (R54, R70). -/
def Obligations.WaitPollsUntilIdle : Prop :=
  ∀ (s : State) (rest : List HostEvent), s.host = .wait :: rest →
    (∀ n, BusyBefore n s →
      step s = .next { s with rdata := some (statusWord s), delay := n, draws := s.draws + 4 }) ∧
    (Idle s → step s = .next { s with rdata := some (statusWord s), host := rest, draws := s.draws + 4 })

/-! ### Reset -/

/-- The reset values of R36: every register 0, nothing pending, every buffer byte unspecified. -/
def Obligations.ResetValuesAreTheTable : Prop :=
  (∀ i : Fin 32, State.reset.key[i] = 0) ∧ State.reset.keylen = 0 ∧ (∀ i : Fin 16, State.reset.state[i] = 0) ∧
  (∀ i : Fin 16, State.reset.chain[i] = 0) ∧ (∀ i : Fin 240, State.reset.rk[i] = 0) ∧
  State.reset.schedValid = false ∧ State.reset.inlen = 0 ∧ State.reset.outlen = 0 ∧ State.reset.opndA = 0 ∧
  State.reset.opndB = 0 ∧ State.reset.result = 0 ∧ State.reset.busy = false ∧ State.reset.overrun = false ∧
  State.reset.errcode = 0 ∧ State.reset.pending = none ∧
  ∀ k, State.reset.inbuf.byte? k = none ∧ State.reset.outbuf.byte? k = none

/-- Asserting reset, with or without a command pending, gives the reset state, and a pending command leaves no trace.
While reset is asserted, for any duration, reads return 0, writes are ignored, a `wait` reads STATUS as 0 and is over, no
command completes, and asserting reset again changes nothing; releasing it changes nothing else (R139, R140). That reset
edges are host events, and `wait` under reset, are log entry 10; which of reset and a completion comes first is log entry 5. -/
def Obligations.ResetInputHoldsTheResetState : Prop :=
  ∀ (s : State) (rest : List HostEvent),
    (s.resetLine = false → s.host = .resetOn :: rest → (s.pending = none ∨ s.delay ≠ 0) →
      ∃ t, step s = .next t ∧ SameCore State.reset t ∧ t.resetLine = true ∧ t.host = rest) ∧
    (s.resetLine = true →
      (∀ a d, s.host = .write a d :: rest → step s = .next { s with host := rest }) ∧
      (∀ a, s.host = .read a :: rest → step s = .next { s with host := rest, rdata := some 0 }) ∧
      (s.host = .wait :: rest → step s = .next { s with host := rest, rdata := some 0 }) ∧
      (s.host = .resetOn :: rest → step s = .next { s with host := rest }) ∧
      (s.host = [] → step s = .next s) ∧
      (s.host = .resetOff :: rest → step s = .next { s with host := rest, resetLine := false }))

/-! ### Whole-machine frames -/

/-- No command writes KEY, KEYLEN, INLEN, OPND or INBUF (R17, R18, R23, R25, R32), and a command does nothing on the
bus. -/
def Obligations.CommandsLeaveInputsAlone : Prop :=
  ∀ (i : Instr) (s t : State), exec i s = .next t →
    t.key = s.key ∧ t.keylen = s.keylen ∧ t.inlen = s.inlen ∧ t.opndA = s.opndA ∧ t.opndB = s.opndB ∧
    (∀ k, t.inbuf.byte? k = s.inbuf.byte? k) ∧ t.host = s.host ∧ t.rdata = s.rdata ∧ t.resetLine = s.resetLine ∧
    t.pending = s.pending

/-- RESULT, RK, CHAIN, OUTLEN, OUTBUF, STATE and OVERRUN are written by the commands the spec names and by no other
(R19 to R21, R24, R26, R29, R33). -/
def Obligations.OutputsHaveTheirOwnWriters : Prop :=
  ∀ (i : Instr) (s t : State), exec i s = .next t →
    (i ∉ [.gfmul, .xtime, .sbox, .invsbox] → t.result = s.result) ∧
    (i ∉ [.keyexp, .cbcenc, .cbcdec] → t.rk = s.rk ∧ t.schedValid = s.schedValid) ∧
    (i ∉ [.cbcenc, .cbcdec] → t.chain = s.chain) ∧
    (i ∉ [.cbcenc, .cbcdec, .pad, .unpad] → t.outlen = s.outlen ∧ ∀ k, t.outbuf.byte? k = s.outbuf.byte? k) ∧
    (i ∈ [.nop, .clrstat, .gfmul, .xtime, .sbox, .invsbox, .keyexp, .pad, .unpad] → t.state = s.state) ∧
    (i ≠ .clrstat → t.overrun = s.overrun)

/-! ### Control and byte commands -/

/-- NOP writes ERRCODE only; CLRSTAT writes OVERRUN and ERRCODE only (R120, R121). -/
def Obligations.ControlCommandsWriteStatusOnly : Prop :=
  ∀ s : State, exec .nop s = .next { s with errcode := 0 } ∧
    exec .clrstat s = .next { s with overrun := false, errcode := 0 }

/-- `xtime` is the shift with reduction by 0x1B, with R71's corner cases. -/
def Obligations.XtimeShiftsAndReduces : Prop :=
  (∀ a : Byte, xtime a = if a.getLsbD 7 then (a <<< 1) ^^^ 0x1B else a <<< 1) ∧
  xtime 0x00 = 0x00 ∧ xtime 0x80 = 0x1B ∧ xtime 0xFF = 0xE5 ∧ xtime 0x7F = 0xFE

/-- `gmul` is the sum, over the bits of the second operand, of the first operand multiplied by x that many times (R72). -/
def Obligations.GmulIsTheSumOverBits : Prop :=
  ∀ a b : Byte, gmul a b =
    (List.range 8).foldl (fun p k => p ^^^ (if b.getLsbD k then xtime^[k] a else 0)) 0

/-- The laws of gmul (R73). -/
def Obligations.GmulLaws : Prop :=
  (∀ a : Byte, gmul a 0x00 = 0x00 ∧ gmul 0x00 a = 0x00 ∧ gmul a 0x01 = a ∧ gmul a 0x02 = xtime a ∧
    gmul a 0x03 = xtime a ^^^ a) ∧
  (∀ a b c : Byte, gmul a (b ^^^ c) = gmul a b ^^^ gmul a c) ∧
  (∀ a b : Byte, gmul a b = gmul b a) ∧
  (∀ a : Byte, a ≠ 0 → ∃ b, gmul a b = 0x01 ∧ ∀ c, gmul a c = 0x01 → c = b)

/-- The ROMs are inverse permutations with no fixed and no opposite fixed point, and R80's entries. -/
def Obligations.SubstitutionRomsAreInverse : Prop :=
  (∀ x : Byte, sbox (invSbox x) = x ∧ invSbox (sbox x) = x ∧ sbox x ≠ x ∧ sbox x ≠ x ^^^ 0xFF) ∧
  sbox 0x00 = 0x63 ∧ sbox 0x01 = 0x7C ∧ sbox 0xFF = 0x16 ∧ invSbox 0x00 = 0x52 ∧ invSbox 0x63 = 0x00

/-- SBOX is the affine transform of the multiplicative inverse, with inv(0) = 0 (R79). -/
def Obligations.SboxIsTheAffineOfTheInverse : Prop :=
  ∀ x b : Byte, (x = 0 ∧ b = 0) ∨ gmul x b = 0x01 →
    sbox x = b ^^^ b.rotateLeft 1 ^^^ b.rotateLeft 2 ^^^ b.rotateLeft 3 ^^^ b.rotateLeft 4 ^^^ 0x63

/-- GFMUL, XTIME, SBOX and INVSBOX write RESULT and ERRCODE only (R75, R76, R81, R82). -/
def Obligations.ByteCommandsWriteResult : Prop :=
  ∀ s : State,
    exec .gfmul s = .next { s with result := gmul s.opndA s.opndB, errcode := 0 } ∧
    exec .xtime s = .next { s with result := xtime s.opndA, errcode := 0 } ∧
    exec .sbox s = .next { s with result := sbox s.opndA, errcode := 0 } ∧
    exec .invsbox s = .next { s with result := invSbox s.opndA, errcode := 0 }

/-! ### Key schedule -/

/-- KEYEXP writes RK = expand(KEY), SCHED_VALID = 1 and ERRCODE only, whatever KEYLEN holds (R86). -/
def Obligations.KeyexpFillsTheSchedule : Prop :=
  ∀ s : State, exec .keyexp s = .next { s with rk := expand s.key, schedValid := true, errcode := 0 }

/-- The 60 words of `expand` obey the recurrence of R85, with R83's round constants 01 02 04 08 10 20 40 at the indices
1 to 7 that it reads. -/
def Obligations.ExpandObeysTheRecurrence : Prop :=
  ∀ k : Key,
    (∀ i : Fin 32, (expand k)[i.val] = k[i]) ∧
    ∀ (n : Nat) (h8 : 8 ≤ n) (h60 : n < 60),
      let t := scheduleWord (expand k) ⟨n - 1, by omega⟩
      let u := scheduleWord (expand k) ⟨n - 8, by omega⟩
      let c := ([0x00, 0x01, 0x02, 0x04, 0x08, 0x10, 0x20, 0x40] : List Byte).getD (n / 8) 0
      scheduleWord (expand k) ⟨n, h60⟩ =
        if n % 8 = 0 then
          ⟨u.t0 ^^^ (sbox t.t1 ^^^ c), u.t1 ^^^ sbox t.t2, u.t2 ^^^ sbox t.t3, u.t3 ^^^ sbox t.t0⟩
        else if n % 8 = 4 then
          ⟨u.t0 ^^^ sbox t.t0, u.t1 ^^^ sbox t.t1, u.t2 ^^^ sbox t.t2, u.t3 ^^^ sbox t.t3⟩
        else ⟨u.t0 ^^^ t.t0, u.t1 ^^^ t.t1, u.t2 ^^^ t.t2, u.t3 ^^^ t.t3⟩

/-! ### Round transformation -/

/-- SUBBYTES and INVSUBBYTES replace every byte through the ROMs and change nothing else but ERRCODE (R88, R92, R96,
R100). -/
def Obligations.SubstituteCommandsActOnEachLane : Prop :=
  ∀ s : State,
    (∃ b : Block, exec .subbytes s = .next { s with state := b, errcode := 0 } ∧
      ∀ i : Fin 16, b[i] = sbox s.state[i]) ∧
    (∃ b : Block, exec .invsubbytes s = .next { s with state := b, errcode := 0 } ∧
      ∀ i : Fin 16, b[i] = invSbox s.state[i])

/-- SHIFTROWS and INVSHIFTROWS rotate row `r` left and right by `r`; `s[r][c]` is byte `4c + r` (R89, R93, R97, R101). -/
def Obligations.ShiftCommandsRotateRows : Prop :=
  ∀ s : State,
    (∃ b : Block, exec .shiftrows s = .next { s with state := b, errcode := 0 } ∧
      ∀ r c : Fin 4, b[4 * c.val + r.val] = s.state[4 * ((c.val + r.val) % 4) + r.val]) ∧
    (∃ b : Block, exec .invshiftrows s = .next { s with state := b, errcode := 0 } ∧
      ∀ r c : Fin 4, b[4 * ((c.val + r.val) % 4) + r.val] = s.state[4 * c.val + r.val])

/-- MIXCOLUMNS and INVMIXCOLUMNS replace each column by the matrix products of R90 and R94 (R98, R102). -/
def Obligations.MixCommandsMultiplyColumns : Prop :=
  ∀ s : State,
    (∃ b : Block, exec .mixcolumns s = .next { s with state := b, errcode := 0 } ∧
      ∀ c : Fin 4,
        let a0 := s.state[4 * c.val]
        let a1 := s.state[4 * c.val + 1]
        let a2 := s.state[4 * c.val + 2]
        let a3 := s.state[4 * c.val + 3]
        b[4 * c.val] = gmul 2 a0 ^^^ gmul 3 a1 ^^^ a2 ^^^ a3 ∧
        b[4 * c.val + 1] = a0 ^^^ gmul 2 a1 ^^^ gmul 3 a2 ^^^ a3 ∧
        b[4 * c.val + 2] = a0 ^^^ a1 ^^^ gmul 2 a2 ^^^ gmul 3 a3 ∧
        b[4 * c.val + 3] = gmul 3 a0 ^^^ a1 ^^^ a2 ^^^ gmul 2 a3) ∧
    (∃ b : Block, exec .invmixcolumns s = .next { s with state := b, errcode := 0 } ∧
      ∀ c : Fin 4,
        let a0 := s.state[4 * c.val]
        let a1 := s.state[4 * c.val + 1]
        let a2 := s.state[4 * c.val + 2]
        let a3 := s.state[4 * c.val + 3]
        b[4 * c.val] = gmul 14 a0 ^^^ gmul 11 a1 ^^^ gmul 13 a2 ^^^ gmul 9 a3 ∧
        b[4 * c.val + 1] = gmul 9 a0 ^^^ gmul 14 a1 ^^^ gmul 11 a2 ^^^ gmul 13 a3 ∧
        b[4 * c.val + 2] = gmul 13 a0 ^^^ gmul 9 a1 ^^^ gmul 14 a2 ^^^ gmul 11 a3 ∧
        b[4 * c.val + 3] = gmul 11 a0 ^^^ gmul 13 a1 ^^^ gmul 9 a2 ^^^ gmul 14 a3)

/-- ADDRK r, r = 0 to 14, with a valid schedule XORs byte `i` of round key `r` into byte `i` of STATE (R91, R99). -/
def Obligations.AddrkAddsTheRoundKey : Prop :=
  ∀ (r : BitVec 4) (h : r.toNat ≤ 14) (s : State), s.schedValid = true →
    ∃ b : Block, exec (.addrk r) s = .next { s with state := b, errcode := 0 } ∧
      ∀ i : Fin 16, b[i] = s.state[i] ^^^ s.rk[16 * r.toNat + i.val]

/-- Without a valid schedule ADDRK, ENCBLOCK and DECBLOCK raise E_NOSCHED and change nothing else; SCHED_VALID is 0
after reset and after every accepted write to KEY (R127). -/
def Obligations.NoScheduleRaisesENosched : Prop :=
  (∀ s : State, s.schedValid = false →
    (∀ r : BitVec 4, r.toNat ≤ 14 → exec (.addrk r) s = .next { s with errcode := 2 }) ∧
    exec .encblock s = .next { s with errcode := 2 } ∧
    exec .decblock s = .next { s with errcode := 2 }) ∧
  State.reset.schedValid = false ∧
  ∀ (s t : State) (a : Addr) (d : Word) (rest : List HostEvent), Idle s → s.host = .write a d :: rest →
    0x100 ≤ (a &&& 0x3FFFC).toNat → (a &&& 0x3FFFC).toNat ≤ 0x11C → step s = .next t → t.schedValid = false

/-- The inverse identities of the round transformation (R95). -/
def Obligations.RoundPrimitivesInvert : Prop :=
  (∀ s : Block, invSubBytes (subBytes s) = s ∧ invShiftRows (shiftRows s) = s ∧
    invMixColumns (mixColumns s) = s ∧
    subBytes (shiftRows s) = shiftRows (subBytes s) ∧
    invSubBytes (invShiftRows s) = invShiftRows (invSubBytes s) ∧
    shiftRows (shiftRows (shiftRows (shiftRows s))) = s ∧
    mixColumns (mixColumns (mixColumns (mixColumns s))) = s) ∧
  ∀ (w : Schedule) (r : Fin 15) (s : Block), addRoundKey w r (addRoundKey w r s) = s

/-! ### Block cipher -/

/-- ENCBLOCK and DECBLOCK with a valid schedule write STATE and ERRCODE only (R107, R108). -/
def Obligations.BlockCommandsTransformState : Prop :=
  ∀ s : State, s.schedValid = true →
    exec .encblock s = .next { s with state := encryptBlock s.state s.rk, errcode := 0 } ∧
    exec .decblock s = .next { s with state := decryptBlock s.state s.rk, errcode := 0 }

/-- ENCBLOCK and DECBLOCK do what their round commands issued one at a time do (R103, R104, R107, R108). -/
def Obligations.BlockCommandsEqualTheirRounds : Prop :=
  ∀ s : State, s.schedValid = true →
    runCommands roundsOfEncblock s = exec .encblock s ∧
    runCommands roundsOfDecblock s = exec .decblock s

/-- Decryption inverts encryption and encryption decryption, for every block and every schedule (R105). -/
def Obligations.BlockCipherIsInvertible : Prop :=
  ∀ (b : Block) (w : Schedule), decryptBlock (encryptBlock b w) w = b ∧ encryptBlock (decryptBlock b w) w = b

/-! ### Padding and CBC -/

/-- `unpad` removes exactly a valid padding and leaves everything else as it is (R110). -/
def Obligations.UnpadRemovesValidPaddingOnly : Prop :=
  (∀ (D : List Byte) (p : Nat), 1 ≤ p → p ≤ 16 → unpad (D ++ List.replicate p (BitVec.ofNat 8 p)) = D) ∧
  ∀ D : List Byte,
    (¬ ∃ (E : List Byte) (p : Nat), 1 ≤ p ∧ p ≤ 16 ∧ D = E ++ List.replicate p (BitVec.ofNat 8 p)) → unpad D = D

/-- The length law, `unpad` undoes `pad`, and the empty sequence pads to one block of sixteen 0x10 bytes, which CBC
encryption turns into its encryptBlock (R111). -/
def Obligations.PaddingLengthLaw : Prop :=
  (∀ D : List Byte, (pad D).length = 16 * (D.length / 16 + 1) ∧ unpad (pad D) = D) ∧
  pad [] = List.replicate 16 0x10 ∧
  ∀ w : Schedule, (cbcEncrypt w zeroBlock (blocksOf (pad []))).1 = [encryptBlock (Vector.replicate 16 0x10) w]

/-- PAD and UNPAD within capacity: OUTBUF[0..OUTLEN) is the padded or unpadded input, nothing else changes but ERRCODE,
and OUTBUF is unspecified from OUTLEN on (R33, R116, R117). -/
def Obligations.PadAndUnpadFillOutbuf : Prop :=
  ∀ s : State,
    (s.inlen.toNat < Config.bufBytes → ∃ m : Memory,
      exec .pad s = .next { s with outbuf := m, outlen := BitVec.ofNat 32 (16 * (s.inlen.toNat / 16 + 1)), errcode := 0, draws := s.draws + s.inlen.toNat } ∧
      ∀ k, m.byte? k = (pad (inputBytes s))[k]?) ∧
    (s.inlen.toNat ≤ Config.bufBytes → ∃ m : Memory,
      exec .unpad s = .next { s with outbuf := m, outlen := BitVec.ofNat 32 (unpad (inputBytes s)).length, errcode := 0, draws := s.draws + s.inlen.toNat } ∧
      ∀ k, m.byte? k = (unpad (inputBytes s))[k]?)

/-- The input of a buffer command is INBUF[0..INLEN) wherever that byte was written (R10, R32). Nothing is said of an
unwritten byte (R37). -/
def Obligations.InputIsTheBufferContents : Prop :=
  ∀ s : State, (inputBytes s).length = s.inlen.toNat ∧
    ∀ (k : Nat) (b : Byte), k < s.inlen.toNat → s.inbuf.byte? k = some b → (inputBytes s)[k]? = some b

/-- INLEN too large gives E_CAPACITY and OUTLEN = 0 and nothing else, whatever KEYLEN holds; every other INLEN gives
E_NONE (R128, R131). -/
def Obligations.CapacityIsCheckedFirst : Prop :=
  ∀ s : State,
    (Config.bufBytes ≤ s.inlen.toNat →
      exec .cbcenc s = .next { s with outlen := 0, errcode := 3 } ∧
      exec .pad s = .next { s with outlen := 0, errcode := 3 }) ∧
    (Config.bufBytes < s.inlen.toNat →
      exec .cbcdec s = .next { s with outlen := 0, errcode := 3 } ∧
      exec .unpad s = .next { s with outlen := 0, errcode := 3 }) ∧
    (s.inlen.toNat < Config.bufBytes →
      ∃ t u, exec .cbcenc s = .next t ∧ t.errcode = 0 ∧ exec .pad s = .next u ∧ u.errcode = 0) ∧
    (s.inlen.toNat ≤ Config.bufBytes →
      ∃ t u, exec .cbcdec s = .next t ∧ t.errcode = 0 ∧ exec .unpad s = .next u ∧ u.errcode = 0)

/-- InvalidKeyLength and InvalidCiphertextAlignment give OUTLEN = 0 with E_NONE and change nothing else (R130). -/
def Obligations.InvalidInputsGiveEmptyResult : Prop :=
  ∀ s : State,
    (s.inlen.toNat < Config.bufBytes → s.keylen ≠ 32 →
      exec .cbcenc s = .next { s with outlen := 0, errcode := 0 }) ∧
    (s.inlen.toNat ≤ Config.bufBytes → s.keylen ≠ 32 ∨ s.inlen.toNat % 16 ≠ 0 →
      exec .cbcdec s = .next { s with outlen := 0, errcode := 0 })

/-- CBCENC with a valid key: ciphertext block `j` is encryptBlock(P_j ^ C_(j-1)), C_(-1) = 0^16, under expand(KEY);
CHAIN and STATE hold the last block (R112, R114). `C j` is ciphertext block `j - 1`, so that `C 0` is the zero block. -/
def Obligations.CbcencChainsCiphertext : Prop :=
  ∀ s : State, s.keylen = 32 → s.inlen.toNat < Config.bufBytes →
    ∃ (m : Memory) (C : Nat → Block),
      let n := s.inlen.toNat / 16 + 1
      C 0 = zeroBlock ∧
      (∀ j, j < n → C (j + 1) = encryptBlock (xorBlock (blockAt (pad (inputBytes s)) j) (C j)) (expand s.key)) ∧
      (∀ k, m.byte? k = if k < 16 * n then some ((C (k / 16 + 1))[k % 16]'(Nat.mod_lt _ (by omega))) else none) ∧
      exec .cbcenc s = .next { s with
        rk := expand s.key, schedValid := true, chain := C n, state := C n, outbuf := m
        outlen := BitVec.ofNat 32 (16 * n), errcode := 0, draws := s.draws + s.inlen.toNat }

/-- CBCDEC with a valid key and an aligned input: plaintext block `j` is decryptBlock(C_j) ^ C_(j-1), C_(-1) = 0^16;
CHAIN holds the last ciphertext block, STATE the last decryptBlock output, and the padding is removed (R113, R115). -/
def Obligations.CbcdecUnchainsPlaintext : Prop :=
  ∀ s : State, s.keylen = 32 → s.inlen.toNat ≤ Config.bufBytes → s.inlen.toNat % 16 = 0 →
    ∃ (m : Memory) (M : List Byte),
      let n := s.inlen.toNat / 16
      let C : Nat → Block := fun j => if j = 0 then zeroBlock else blockAt (inputBytes s) (j - 1)
      M.length = s.inlen.toNat ∧
      (∀ j, j < n → blockAt M j = xorBlock (decryptBlock (C (j + 1)) (expand s.key)) (C j)) ∧
      (∀ k, m.byte? k = (unpad M)[k]?) ∧
      exec .cbcdec s = .next { s with
        rk := expand s.key, schedValid := true, chain := C n
        state := if n = 0 then s.state else decryptBlock (C n) (expand s.key)
        outbuf := m, outlen := BitVec.ofNat 32 (unpad M).length, errcode := 0
        draws := s.draws + s.inlen.toNat }

/-- The CBC round trip through the commands (R118): encrypt, copy OUTBUF[0..OUTLEN) into INBUF, set INLEN to OUTLEN, and
decrypt: OUTBUF[0..OUTLEN) is the plaintext again. -/
def Obligations.CbcRoundTrip : Prop :=
  ∀ s t u : State, s.keylen = 32 → s.inlen.toNat < Config.bufBytes →
    (∀ k, k < s.inlen.toNat → (s.inbuf.byte? k).isSome = true) →
    exec .cbcenc s = .next t →
    u.key = s.key → u.keylen = 32 → u.inlen = t.outlen →
    (∀ k, k < t.outlen.toNat → u.inbuf.byte? k = t.outbuf.byte? k) →
    ∃ v, exec .cbcdec u = .next v ∧ v.outlen = s.inlen ∧
      ∀ k, k < s.inlen.toNat → v.outbuf.byte? k = s.inbuf.byte? k

/-- A buffer command's output depends only on KEY, KEYLEN, INLEN and the bytes INBUF[0..INLEN): two states that agree on
these, with those bytes written, get the same OUTLEN and OUTBUF[0..OUTLEN) (R112, R114 to R118). -/
def Obligations.BufferCommandsAreDeterministic : Prop :=
  ∀ (i : Instr) (s s' t t' : State), i ∈ [.cbcenc, .cbcdec, .pad, .unpad] →
    s.key = s'.key → s.keylen = s'.keylen → s.inlen = s'.inlen →
    (∀ k, k < s.inlen.toNat → (s.inbuf.byte? k).isSome = true ∧ s.inbuf.byte? k = s'.inbuf.byte? k) →
    exec i s = .next t → exec i s' = .next t' →
    t.outlen = t'.outlen ∧ t.errcode = t'.errcode ∧ ∀ k, k < t.outlen.toNat → t.outbuf.byte? k = t'.outbuf.byte? k
end

