-- ==== Sys2Proof/Laws/State.lean ====
section
/-! SUPPORT. One lemma per field per register update: what each update writes and what it leaves. -/

namespace Sys2Proof.Machine

variable (s : State)

@[simp] theorem raise_key (c : BitVec 4) : (raise c s).key = s.key := rfl
@[simp] theorem raise_keylen (c : BitVec 4) : (raise c s).keylen = s.keylen := rfl
@[simp] theorem raise_state (c : BitVec 4) : (raise c s).state = s.state := rfl
@[simp] theorem raise_chain (c : BitVec 4) : (raise c s).chain = s.chain := rfl
@[simp] theorem raise_rk (c : BitVec 4) : (raise c s).rk = s.rk := rfl
@[simp] theorem raise_schedValid (c : BitVec 4) : (raise c s).schedValid = s.schedValid := rfl
@[simp] theorem raise_inlen (c : BitVec 4) : (raise c s).inlen = s.inlen := rfl
@[simp] theorem raise_outlen (c : BitVec 4) : (raise c s).outlen = s.outlen := rfl
@[simp] theorem raise_opndA (c : BitVec 4) : (raise c s).opndA = s.opndA := rfl
@[simp] theorem raise_opndB (c : BitVec 4) : (raise c s).opndB = s.opndB := rfl
@[simp] theorem raise_result (c : BitVec 4) : (raise c s).result = s.result := rfl
@[simp] theorem raise_overrun (c : BitVec 4) : (raise c s).overrun = s.overrun := rfl
@[simp] theorem raise_errcode (c : BitVec 4) : (raise c s).errcode = c := rfl
@[simp] theorem raise_pending (c : BitVec 4) : (raise c s).pending = s.pending := rfl
@[simp] theorem raise_inbuf (c : BitVec 4) : (raise c s).inbuf = s.inbuf := rfl
@[simp] theorem raise_outbuf (c : BitVec 4) : (raise c s).outbuf = s.outbuf := rfl
@[simp] theorem raise_host (c : BitVec 4) : (raise c s).host = s.host := rfl
@[simp] theorem raise_resetLine (c : BitVec 4) : (raise c s).resetLine = s.resetLine := rfl
@[simp] theorem raise_rdata (c : BitVec 4) : (raise c s).rdata = s.rdata := rfl
@[simp] theorem raise_delay (c : BitVec 4) : (raise c s).delay = s.delay := rfl
@[simp] theorem raise_draws (c : BitVec 4) : (raise c s).draws = s.draws := rfl

@[simp] theorem succeed_key : (succeed s).key = s.key := rfl
@[simp] theorem succeed_keylen : (succeed s).keylen = s.keylen := rfl
@[simp] theorem succeed_state : (succeed s).state = s.state := rfl
@[simp] theorem succeed_chain : (succeed s).chain = s.chain := rfl
@[simp] theorem succeed_rk : (succeed s).rk = s.rk := rfl
@[simp] theorem succeed_schedValid : (succeed s).schedValid = s.schedValid := rfl
@[simp] theorem succeed_inlen : (succeed s).inlen = s.inlen := rfl
@[simp] theorem succeed_outlen : (succeed s).outlen = s.outlen := rfl
@[simp] theorem succeed_opndA : (succeed s).opndA = s.opndA := rfl
@[simp] theorem succeed_opndB : (succeed s).opndB = s.opndB := rfl
@[simp] theorem succeed_result : (succeed s).result = s.result := rfl
@[simp] theorem succeed_overrun : (succeed s).overrun = s.overrun := rfl
@[simp] theorem succeed_errcode : (succeed s).errcode = eNone := rfl
@[simp] theorem succeed_pending : (succeed s).pending = s.pending := rfl
@[simp] theorem succeed_inbuf : (succeed s).inbuf = s.inbuf := rfl
@[simp] theorem succeed_outbuf : (succeed s).outbuf = s.outbuf := rfl
@[simp] theorem succeed_host : (succeed s).host = s.host := rfl
@[simp] theorem succeed_resetLine : (succeed s).resetLine = s.resetLine := rfl
@[simp] theorem succeed_rdata : (succeed s).rdata = s.rdata := rfl
@[simp] theorem succeed_delay : (succeed s).delay = s.delay := rfl
@[simp] theorem succeed_draws : (succeed s).draws = s.draws := rfl

@[simp] theorem withOverrun_key (b : Bool) : (withOverrun b s).key = s.key := rfl
@[simp] theorem withOverrun_keylen (b : Bool) : (withOverrun b s).keylen = s.keylen := rfl
@[simp] theorem withOverrun_state (b : Bool) : (withOverrun b s).state = s.state := rfl
@[simp] theorem withOverrun_chain (b : Bool) : (withOverrun b s).chain = s.chain := rfl
@[simp] theorem withOverrun_rk (b : Bool) : (withOverrun b s).rk = s.rk := rfl
@[simp] theorem withOverrun_schedValid (b : Bool) : (withOverrun b s).schedValid = s.schedValid := rfl
@[simp] theorem withOverrun_inlen (b : Bool) : (withOverrun b s).inlen = s.inlen := rfl
@[simp] theorem withOverrun_outlen (b : Bool) : (withOverrun b s).outlen = s.outlen := rfl
@[simp] theorem withOverrun_opndA (b : Bool) : (withOverrun b s).opndA = s.opndA := rfl
@[simp] theorem withOverrun_opndB (b : Bool) : (withOverrun b s).opndB = s.opndB := rfl
@[simp] theorem withOverrun_result (b : Bool) : (withOverrun b s).result = s.result := rfl
@[simp] theorem withOverrun_overrun (b : Bool) : (withOverrun b s).overrun = b := rfl
@[simp] theorem withOverrun_errcode (b : Bool) : (withOverrun b s).errcode = s.errcode := rfl
@[simp] theorem withOverrun_pending (b : Bool) : (withOverrun b s).pending = s.pending := rfl
@[simp] theorem withOverrun_inbuf (b : Bool) : (withOverrun b s).inbuf = s.inbuf := rfl
@[simp] theorem withOverrun_outbuf (b : Bool) : (withOverrun b s).outbuf = s.outbuf := rfl
@[simp] theorem withOverrun_host (b : Bool) : (withOverrun b s).host = s.host := rfl
@[simp] theorem withOverrun_resetLine (b : Bool) : (withOverrun b s).resetLine = s.resetLine := rfl
@[simp] theorem withOverrun_rdata (b : Bool) : (withOverrun b s).rdata = s.rdata := rfl
@[simp] theorem withOverrun_delay (b : Bool) : (withOverrun b s).delay = s.delay := rfl
@[simp] theorem withOverrun_draws (b : Bool) : (withOverrun b s).draws = s.draws := rfl

@[simp] theorem withResult_key (b : Byte) : (withResult b s).key = s.key := rfl
@[simp] theorem withResult_keylen (b : Byte) : (withResult b s).keylen = s.keylen := rfl
@[simp] theorem withResult_state (b : Byte) : (withResult b s).state = s.state := rfl
@[simp] theorem withResult_chain (b : Byte) : (withResult b s).chain = s.chain := rfl
@[simp] theorem withResult_rk (b : Byte) : (withResult b s).rk = s.rk := rfl
@[simp] theorem withResult_schedValid (b : Byte) : (withResult b s).schedValid = s.schedValid := rfl
@[simp] theorem withResult_inlen (b : Byte) : (withResult b s).inlen = s.inlen := rfl
@[simp] theorem withResult_outlen (b : Byte) : (withResult b s).outlen = s.outlen := rfl
@[simp] theorem withResult_opndA (b : Byte) : (withResult b s).opndA = s.opndA := rfl
@[simp] theorem withResult_opndB (b : Byte) : (withResult b s).opndB = s.opndB := rfl
@[simp] theorem withResult_result (b : Byte) : (withResult b s).result = b := rfl
@[simp] theorem withResult_overrun (b : Byte) : (withResult b s).overrun = s.overrun := rfl
@[simp] theorem withResult_errcode (b : Byte) : (withResult b s).errcode = s.errcode := rfl
@[simp] theorem withResult_pending (b : Byte) : (withResult b s).pending = s.pending := rfl
@[simp] theorem withResult_inbuf (b : Byte) : (withResult b s).inbuf = s.inbuf := rfl
@[simp] theorem withResult_outbuf (b : Byte) : (withResult b s).outbuf = s.outbuf := rfl
@[simp] theorem withResult_host (b : Byte) : (withResult b s).host = s.host := rfl
@[simp] theorem withResult_resetLine (b : Byte) : (withResult b s).resetLine = s.resetLine := rfl
@[simp] theorem withResult_rdata (b : Byte) : (withResult b s).rdata = s.rdata := rfl
@[simp] theorem withResult_delay (b : Byte) : (withResult b s).delay = s.delay := rfl
@[simp] theorem withResult_draws (b : Byte) : (withResult b s).draws = s.draws := rfl

@[simp] theorem withState_key (b : Block) : (withState b s).key = s.key := rfl
@[simp] theorem withState_keylen (b : Block) : (withState b s).keylen = s.keylen := rfl
@[simp] theorem withState_state (b : Block) : (withState b s).state = b := rfl
@[simp] theorem withState_chain (b : Block) : (withState b s).chain = s.chain := rfl
@[simp] theorem withState_rk (b : Block) : (withState b s).rk = s.rk := rfl
@[simp] theorem withState_schedValid (b : Block) : (withState b s).schedValid = s.schedValid := rfl
@[simp] theorem withState_inlen (b : Block) : (withState b s).inlen = s.inlen := rfl
@[simp] theorem withState_outlen (b : Block) : (withState b s).outlen = s.outlen := rfl
@[simp] theorem withState_opndA (b : Block) : (withState b s).opndA = s.opndA := rfl
@[simp] theorem withState_opndB (b : Block) : (withState b s).opndB = s.opndB := rfl
@[simp] theorem withState_result (b : Block) : (withState b s).result = s.result := rfl
@[simp] theorem withState_overrun (b : Block) : (withState b s).overrun = s.overrun := rfl
@[simp] theorem withState_errcode (b : Block) : (withState b s).errcode = s.errcode := rfl
@[simp] theorem withState_pending (b : Block) : (withState b s).pending = s.pending := rfl
@[simp] theorem withState_inbuf (b : Block) : (withState b s).inbuf = s.inbuf := rfl
@[simp] theorem withState_outbuf (b : Block) : (withState b s).outbuf = s.outbuf := rfl
@[simp] theorem withState_host (b : Block) : (withState b s).host = s.host := rfl
@[simp] theorem withState_resetLine (b : Block) : (withState b s).resetLine = s.resetLine := rfl
@[simp] theorem withState_rdata (b : Block) : (withState b s).rdata = s.rdata := rfl
@[simp] theorem withState_delay (b : Block) : (withState b s).delay = s.delay := rfl
@[simp] theorem withState_draws (b : Block) : (withState b s).draws = s.draws := rfl

@[simp] theorem withChain_key (b : Block) : (withChain b s).key = s.key := rfl
@[simp] theorem withChain_keylen (b : Block) : (withChain b s).keylen = s.keylen := rfl
@[simp] theorem withChain_state (b : Block) : (withChain b s).state = s.state := rfl
@[simp] theorem withChain_chain (b : Block) : (withChain b s).chain = b := rfl
@[simp] theorem withChain_rk (b : Block) : (withChain b s).rk = s.rk := rfl
@[simp] theorem withChain_schedValid (b : Block) : (withChain b s).schedValid = s.schedValid := rfl
@[simp] theorem withChain_inlen (b : Block) : (withChain b s).inlen = s.inlen := rfl
@[simp] theorem withChain_outlen (b : Block) : (withChain b s).outlen = s.outlen := rfl
@[simp] theorem withChain_opndA (b : Block) : (withChain b s).opndA = s.opndA := rfl
@[simp] theorem withChain_opndB (b : Block) : (withChain b s).opndB = s.opndB := rfl
@[simp] theorem withChain_result (b : Block) : (withChain b s).result = s.result := rfl
@[simp] theorem withChain_overrun (b : Block) : (withChain b s).overrun = s.overrun := rfl
@[simp] theorem withChain_errcode (b : Block) : (withChain b s).errcode = s.errcode := rfl
@[simp] theorem withChain_pending (b : Block) : (withChain b s).pending = s.pending := rfl
@[simp] theorem withChain_inbuf (b : Block) : (withChain b s).inbuf = s.inbuf := rfl
@[simp] theorem withChain_outbuf (b : Block) : (withChain b s).outbuf = s.outbuf := rfl
@[simp] theorem withChain_host (b : Block) : (withChain b s).host = s.host := rfl
@[simp] theorem withChain_resetLine (b : Block) : (withChain b s).resetLine = s.resetLine := rfl
@[simp] theorem withChain_rdata (b : Block) : (withChain b s).rdata = s.rdata := rfl
@[simp] theorem withChain_delay (b : Block) : (withChain b s).delay = s.delay := rfl
@[simp] theorem withChain_draws (b : Block) : (withChain b s).draws = s.draws := rfl

@[simp] theorem withSchedule_key (w : Schedule) : (withSchedule w s).key = s.key := rfl
@[simp] theorem withSchedule_keylen (w : Schedule) : (withSchedule w s).keylen = s.keylen := rfl
@[simp] theorem withSchedule_state (w : Schedule) : (withSchedule w s).state = s.state := rfl
@[simp] theorem withSchedule_chain (w : Schedule) : (withSchedule w s).chain = s.chain := rfl
@[simp] theorem withSchedule_rk (w : Schedule) : (withSchedule w s).rk = w := rfl
@[simp] theorem withSchedule_schedValid (w : Schedule) : (withSchedule w s).schedValid = true := rfl
@[simp] theorem withSchedule_inlen (w : Schedule) : (withSchedule w s).inlen = s.inlen := rfl
@[simp] theorem withSchedule_outlen (w : Schedule) : (withSchedule w s).outlen = s.outlen := rfl
@[simp] theorem withSchedule_opndA (w : Schedule) : (withSchedule w s).opndA = s.opndA := rfl
@[simp] theorem withSchedule_opndB (w : Schedule) : (withSchedule w s).opndB = s.opndB := rfl
@[simp] theorem withSchedule_result (w : Schedule) : (withSchedule w s).result = s.result := rfl
@[simp] theorem withSchedule_overrun (w : Schedule) : (withSchedule w s).overrun = s.overrun := rfl
@[simp] theorem withSchedule_errcode (w : Schedule) : (withSchedule w s).errcode = s.errcode := rfl
@[simp] theorem withSchedule_pending (w : Schedule) : (withSchedule w s).pending = s.pending := rfl
@[simp] theorem withSchedule_inbuf (w : Schedule) : (withSchedule w s).inbuf = s.inbuf := rfl
@[simp] theorem withSchedule_outbuf (w : Schedule) : (withSchedule w s).outbuf = s.outbuf := rfl
@[simp] theorem withSchedule_host (w : Schedule) : (withSchedule w s).host = s.host := rfl
@[simp] theorem withSchedule_resetLine (w : Schedule) : (withSchedule w s).resetLine = s.resetLine := rfl
@[simp] theorem withSchedule_rdata (w : Schedule) : (withSchedule w s).rdata = s.rdata := rfl
@[simp] theorem withSchedule_delay (w : Schedule) : (withSchedule w s).delay = s.delay := rfl
@[simp] theorem withSchedule_draws (w : Schedule) : (withSchedule w s).draws = s.draws := rfl

@[simp] theorem emptyOutput_key : (emptyOutput s).key = s.key := rfl
@[simp] theorem emptyOutput_keylen : (emptyOutput s).keylen = s.keylen := rfl
@[simp] theorem emptyOutput_state : (emptyOutput s).state = s.state := rfl
@[simp] theorem emptyOutput_chain : (emptyOutput s).chain = s.chain := rfl
@[simp] theorem emptyOutput_rk : (emptyOutput s).rk = s.rk := rfl
@[simp] theorem emptyOutput_schedValid : (emptyOutput s).schedValid = s.schedValid := rfl
@[simp] theorem emptyOutput_inlen : (emptyOutput s).inlen = s.inlen := rfl
@[simp] theorem emptyOutput_outlen : (emptyOutput s).outlen = 0 := rfl
@[simp] theorem emptyOutput_opndA : (emptyOutput s).opndA = s.opndA := rfl
@[simp] theorem emptyOutput_opndB : (emptyOutput s).opndB = s.opndB := rfl
@[simp] theorem emptyOutput_result : (emptyOutput s).result = s.result := rfl
@[simp] theorem emptyOutput_overrun : (emptyOutput s).overrun = s.overrun := rfl
@[simp] theorem emptyOutput_errcode : (emptyOutput s).errcode = s.errcode := rfl
@[simp] theorem emptyOutput_pending : (emptyOutput s).pending = s.pending := rfl
@[simp] theorem emptyOutput_inbuf : (emptyOutput s).inbuf = s.inbuf := rfl
@[simp] theorem emptyOutput_outbuf : (emptyOutput s).outbuf = s.outbuf := rfl
@[simp] theorem emptyOutput_host : (emptyOutput s).host = s.host := rfl
@[simp] theorem emptyOutput_resetLine : (emptyOutput s).resetLine = s.resetLine := rfl
@[simp] theorem emptyOutput_rdata : (emptyOutput s).rdata = s.rdata := rfl
@[simp] theorem emptyOutput_delay : (emptyOutput s).delay = s.delay := rfl
@[simp] theorem emptyOutput_draws : (emptyOutput s).draws = s.draws := rfl

@[simp] theorem storeOutput_key (v : List Byte) (n : Nat) : (storeOutput v n s).key = s.key := rfl
@[simp] theorem storeOutput_keylen (v : List Byte) (n : Nat) : (storeOutput v n s).keylen = s.keylen := rfl
@[simp] theorem storeOutput_state (v : List Byte) (n : Nat) : (storeOutput v n s).state = s.state := rfl
@[simp] theorem storeOutput_chain (v : List Byte) (n : Nat) : (storeOutput v n s).chain = s.chain := rfl
@[simp] theorem storeOutput_rk (v : List Byte) (n : Nat) : (storeOutput v n s).rk = s.rk := rfl
@[simp] theorem storeOutput_schedValid (v : List Byte) (n : Nat) : (storeOutput v n s).schedValid = s.schedValid := rfl
@[simp] theorem storeOutput_inlen (v : List Byte) (n : Nat) : (storeOutput v n s).inlen = s.inlen := rfl
@[simp] theorem storeOutput_outlen (v : List Byte) (n : Nat) : (storeOutput v n s).outlen = BitVec.ofNat 32 n := rfl
@[simp] theorem storeOutput_opndA (v : List Byte) (n : Nat) : (storeOutput v n s).opndA = s.opndA := rfl
@[simp] theorem storeOutput_opndB (v : List Byte) (n : Nat) : (storeOutput v n s).opndB = s.opndB := rfl
@[simp] theorem storeOutput_result (v : List Byte) (n : Nat) : (storeOutput v n s).result = s.result := rfl
@[simp] theorem storeOutput_overrun (v : List Byte) (n : Nat) : (storeOutput v n s).overrun = s.overrun := rfl
@[simp] theorem storeOutput_errcode (v : List Byte) (n : Nat) : (storeOutput v n s).errcode = s.errcode := rfl
@[simp] theorem storeOutput_pending (v : List Byte) (n : Nat) : (storeOutput v n s).pending = s.pending := rfl
@[simp] theorem storeOutput_inbuf (v : List Byte) (n : Nat) : (storeOutput v n s).inbuf = s.inbuf := rfl
@[simp] theorem storeOutput_outbuf (v : List Byte) (n : Nat) : (storeOutput v n s).outbuf = Memory.ofBytes 0 (v.take n) := rfl
@[simp] theorem storeOutput_host (v : List Byte) (n : Nat) : (storeOutput v n s).host = s.host := rfl
@[simp] theorem storeOutput_resetLine (v : List Byte) (n : Nat) : (storeOutput v n s).resetLine = s.resetLine := rfl
@[simp] theorem storeOutput_rdata (v : List Byte) (n : Nat) : (storeOutput v n s).rdata = s.rdata := rfl
@[simp] theorem storeOutput_delay (v : List Byte) (n : Nat) : (storeOutput v n s).delay = s.delay := rfl
@[simp] theorem storeOutput_draws (v : List Byte) (n : Nat) : (storeOutput v n s).draws = s.draws := rfl

@[simp] theorem pastDraws_toArch (n : Nat) : (pastDraws n s).toArch = s.toArch := rfl
@[simp] theorem pastDraws_key (n : Nat) : (pastDraws n s).key = s.key := rfl
@[simp] theorem pastDraws_keylen (n : Nat) : (pastDraws n s).keylen = s.keylen := rfl
@[simp] theorem pastDraws_state (n : Nat) : (pastDraws n s).state = s.state := rfl
@[simp] theorem pastDraws_chain (n : Nat) : (pastDraws n s).chain = s.chain := rfl
@[simp] theorem pastDraws_rk (n : Nat) : (pastDraws n s).rk = s.rk := rfl
@[simp] theorem pastDraws_schedValid (n : Nat) : (pastDraws n s).schedValid = s.schedValid := rfl
@[simp] theorem pastDraws_inlen (n : Nat) : (pastDraws n s).inlen = s.inlen := rfl
@[simp] theorem pastDraws_outlen (n : Nat) : (pastDraws n s).outlen = s.outlen := rfl
@[simp] theorem pastDraws_opndA (n : Nat) : (pastDraws n s).opndA = s.opndA := rfl
@[simp] theorem pastDraws_opndB (n : Nat) : (pastDraws n s).opndB = s.opndB := rfl
@[simp] theorem pastDraws_result (n : Nat) : (pastDraws n s).result = s.result := rfl
@[simp] theorem pastDraws_overrun (n : Nat) : (pastDraws n s).overrun = s.overrun := rfl
@[simp] theorem pastDraws_errcode (n : Nat) : (pastDraws n s).errcode = s.errcode := rfl
@[simp] theorem pastDraws_pending (n : Nat) : (pastDraws n s).pending = s.pending := rfl
@[simp] theorem pastDraws_inbuf (n : Nat) : (pastDraws n s).inbuf = s.inbuf := rfl
@[simp] theorem pastDraws_outbuf (n : Nat) : (pastDraws n s).outbuf = s.outbuf := rfl
@[simp] theorem pastDraws_host (n : Nat) : (pastDraws n s).host = s.host := rfl
@[simp] theorem pastDraws_resetLine (n : Nat) : (pastDraws n s).resetLine = s.resetLine := rfl
@[simp] theorem pastDraws_rdata (n : Nat) : (pastDraws n s).rdata = s.rdata := rfl
@[simp] theorem pastDraws_delay (n : Nat) : (pastDraws n s).delay = s.delay := rfl
@[simp] theorem pastDraws_draws (n : Nat) : (pastDraws n s).draws = s.draws + n := rfl

@[simp] theorem latch_key (d : Word) (n : Nat) : (latch d n s).key = s.key := rfl
@[simp] theorem latch_keylen (d : Word) (n : Nat) : (latch d n s).keylen = s.keylen := rfl
@[simp] theorem latch_state (d : Word) (n : Nat) : (latch d n s).state = s.state := rfl
@[simp] theorem latch_chain (d : Word) (n : Nat) : (latch d n s).chain = s.chain := rfl
@[simp] theorem latch_rk (d : Word) (n : Nat) : (latch d n s).rk = s.rk := rfl
@[simp] theorem latch_schedValid (d : Word) (n : Nat) : (latch d n s).schedValid = s.schedValid := rfl
@[simp] theorem latch_inlen (d : Word) (n : Nat) : (latch d n s).inlen = s.inlen := rfl
@[simp] theorem latch_outlen (d : Word) (n : Nat) : (latch d n s).outlen = s.outlen := rfl
@[simp] theorem latch_opndA (d : Word) (n : Nat) : (latch d n s).opndA = s.opndA := rfl
@[simp] theorem latch_opndB (d : Word) (n : Nat) : (latch d n s).opndB = s.opndB := rfl
@[simp] theorem latch_result (d : Word) (n : Nat) : (latch d n s).result = s.result := rfl
@[simp] theorem latch_overrun (d : Word) (n : Nat) : (latch d n s).overrun = s.overrun := rfl
@[simp] theorem latch_errcode (d : Word) (n : Nat) : (latch d n s).errcode = s.errcode := rfl
@[simp] theorem latch_pending (d : Word) (n : Nat) : (latch d n s).pending = some d := rfl
@[simp] theorem latch_inbuf (d : Word) (n : Nat) : (latch d n s).inbuf = s.inbuf := rfl
@[simp] theorem latch_outbuf (d : Word) (n : Nat) : (latch d n s).outbuf = s.outbuf := rfl
@[simp] theorem latch_host (d : Word) (n : Nat) : (latch d n s).host = s.host := rfl
@[simp] theorem latch_resetLine (d : Word) (n : Nat) : (latch d n s).resetLine = s.resetLine := rfl
@[simp] theorem latch_rdata (d : Word) (n : Nat) : (latch d n s).rdata = s.rdata := rfl
@[simp] theorem latch_delay (d : Word) (n : Nat) : (latch d n s).delay = n := rfl
@[simp] theorem latch_draws (d : Word) (n : Nat) : (latch d n s).draws = s.draws := rfl

@[simp] theorem goIdle_key : (goIdle s).key = s.key := rfl
@[simp] theorem goIdle_keylen : (goIdle s).keylen = s.keylen := rfl
@[simp] theorem goIdle_state : (goIdle s).state = s.state := rfl
@[simp] theorem goIdle_chain : (goIdle s).chain = s.chain := rfl
@[simp] theorem goIdle_rk : (goIdle s).rk = s.rk := rfl
@[simp] theorem goIdle_schedValid : (goIdle s).schedValid = s.schedValid := rfl
@[simp] theorem goIdle_inlen : (goIdle s).inlen = s.inlen := rfl
@[simp] theorem goIdle_outlen : (goIdle s).outlen = s.outlen := rfl
@[simp] theorem goIdle_opndA : (goIdle s).opndA = s.opndA := rfl
@[simp] theorem goIdle_opndB : (goIdle s).opndB = s.opndB := rfl
@[simp] theorem goIdle_result : (goIdle s).result = s.result := rfl
@[simp] theorem goIdle_overrun : (goIdle s).overrun = s.overrun := rfl
@[simp] theorem goIdle_errcode : (goIdle s).errcode = s.errcode := rfl
@[simp] theorem goIdle_pending : (goIdle s).pending = none := rfl
@[simp] theorem goIdle_inbuf : (goIdle s).inbuf = s.inbuf := rfl
@[simp] theorem goIdle_outbuf : (goIdle s).outbuf = s.outbuf := rfl
@[simp] theorem goIdle_host : (goIdle s).host = s.host := rfl
@[simp] theorem goIdle_resetLine : (goIdle s).resetLine = s.resetLine := rfl
@[simp] theorem goIdle_rdata : (goIdle s).rdata = s.rdata := rfl
@[simp] theorem goIdle_delay : (goIdle s).delay = 0 := rfl
@[simp] theorem goIdle_draws : (goIdle s).draws = s.draws := rfl

@[simp] theorem withOpnd_key (d : Word) : (withOpnd d s).key = s.key := rfl
@[simp] theorem withOpnd_keylen (d : Word) : (withOpnd d s).keylen = s.keylen := rfl
@[simp] theorem withOpnd_state (d : Word) : (withOpnd d s).state = s.state := rfl
@[simp] theorem withOpnd_chain (d : Word) : (withOpnd d s).chain = s.chain := rfl
@[simp] theorem withOpnd_rk (d : Word) : (withOpnd d s).rk = s.rk := rfl
@[simp] theorem withOpnd_schedValid (d : Word) : (withOpnd d s).schedValid = s.schedValid := rfl
@[simp] theorem withOpnd_inlen (d : Word) : (withOpnd d s).inlen = s.inlen := rfl
@[simp] theorem withOpnd_outlen (d : Word) : (withOpnd d s).outlen = s.outlen := rfl
@[simp] theorem withOpnd_opndA (d : Word) : (withOpnd d s).opndA = busByte d 0 := rfl
@[simp] theorem withOpnd_opndB (d : Word) : (withOpnd d s).opndB = busByte d 1 := rfl
@[simp] theorem withOpnd_result (d : Word) : (withOpnd d s).result = s.result := rfl
@[simp] theorem withOpnd_overrun (d : Word) : (withOpnd d s).overrun = s.overrun := rfl
@[simp] theorem withOpnd_errcode (d : Word) : (withOpnd d s).errcode = s.errcode := rfl
@[simp] theorem withOpnd_pending (d : Word) : (withOpnd d s).pending = s.pending := rfl
@[simp] theorem withOpnd_inbuf (d : Word) : (withOpnd d s).inbuf = s.inbuf := rfl
@[simp] theorem withOpnd_outbuf (d : Word) : (withOpnd d s).outbuf = s.outbuf := rfl
@[simp] theorem withOpnd_host (d : Word) : (withOpnd d s).host = s.host := rfl
@[simp] theorem withOpnd_resetLine (d : Word) : (withOpnd d s).resetLine = s.resetLine := rfl
@[simp] theorem withOpnd_rdata (d : Word) : (withOpnd d s).rdata = s.rdata := rfl
@[simp] theorem withOpnd_delay (d : Word) : (withOpnd d s).delay = s.delay := rfl
@[simp] theorem withOpnd_draws (d : Word) : (withOpnd d s).draws = s.draws := rfl

end Sys2Proof.Machine
end

