-- ==== Sys2Proof/Laws/Blocks.lean ====
section
/-! SUPPORT. Blocks and byte sequences: every primitive byte by byte, and how long a sequence of blocks is. -/

namespace Sys2Proof.Machine

@[simp] theorem getElem_zeroBlock (i : Nat) (h : i < 16) : zeroBlock[i] = 0 := by simp [zeroBlock]

@[simp] theorem getElem_xorBlock (a b : Block) (i : Nat) (h : i < 16) : (xorBlock a b)[i] = a[i] ^^^ b[i] := by
  simp [xorBlock]

@[simp] theorem getElem_blockAt (B : List Byte) (j i : Nat) (h : i < 16) :
    (blockAt B j)[i] = B.getD (16 * j + i) 0 := by simp [blockAt]

@[simp] theorem getElem_subBytes (s : Block) (i : Nat) (h : i < 16) : (subBytes s)[i] = sbox s[i] := by
  simp [subBytes]

@[simp] theorem getElem_invSubBytes (s : Block) (i : Nat) (h : i < 16) : (invSubBytes s)[i] = invSbox s[i] := by
  simp [invSubBytes]

@[simp] theorem getElem_shiftRows (s : Block) (i : Nat) (h : i < 16) :
    (shiftRows s)[i] = s[4 * ((i / 4 + i % 4) % 4) + i % 4] := by simp [shiftRows]

@[simp] theorem getElem_invShiftRows (s : Block) (i : Nat) (h : i < 16) :
    (invShiftRows s)[i] = s[4 * ((i / 4 + 4 - i % 4) % 4) + i % 4] := by simp [invShiftRows]

@[simp] theorem getElem_addRoundKey (w : Schedule) (r : Fin 15) (s : Block) (i : Nat) (h : i < 16) :
    (addRoundKey w r s)[i] = s[i] ^^^ w[16 * r.val + i] := by simp [addRoundKey, roundKeyByte]

@[simp] theorem getElem_mixColumns (s : Block) (i : Nat) (h : i < 16) :
    (mixColumns s)[i] = mixRow s ⟨i / 4, by omega⟩ ⟨i % 4, by omega⟩ := by simp [mixColumns]

@[simp] theorem getElem_invMixColumns (s : Block) (i : Nat) (h : i < 16) :
    (invMixColumns s)[i] = invMixRow s ⟨i / 4, by omega⟩ ⟨i % 4, by omega⟩ := by simp [invMixColumns]

@[simp] theorem getElem_expand (k : Key) (i : Nat) (h : i < 240) :
    (expand k)[i] = KeyWord.byte ((expandWords k 52).getD (i / 4) ⟨0, 0, 0, 0⟩) (i % 4) := by simp [expand]

/-- The schedule grows by one word at a time, so the first words of a longer one are the shorter one. -/
theorem length_expandWords (k : Key) (n : Nat) : (expandWords k n).length = n + 8 := by
  induction n with
  | zero => rfl
  | succ n ih => simp [expandWords, ih]

@[simp] theorem length_blocksOf (B : List Byte) : (blocksOf B).length = B.length / 16 := by simp [blocksOf]

@[simp] theorem length_bytesOf (bs : List Block) : (bytesOf bs).length = 16 * bs.length := by
  induction bs with
  | nil => rfl
  | cons b bs ih =>
    have e : bytesOf (b :: bs) = b.toList ++ bytesOf bs := rfl
    simp [e, ih]; omega

/-- Byte `k` of blocks stored one after another. -/
theorem getElem?_bytesOf (bs : List Block) (k : Nat) :
    (bytesOf bs)[k]? = bs[k / 16]?.map fun b => b[k % 16]'(Nat.mod_lt _ (by omega)) := by
  induction bs generalizing k with
  | nil => simp [bytesOf]
  | cons b bs ih =>
    have e : bytesOf (b :: bs) = b.toList ++ bytesOf bs := rfl
    rw [e]
    by_cases h : k < 16
    · have h0 : k / 16 = 0 := Nat.div_eq_of_lt h
      have h1 : k % 16 = k := Nat.mod_eq_of_lt h
      rw [List.getElem?_append_left (by simpa using h)]
      simp [h0, h1, h]
    · obtain ⟨j, rfl⟩ := Nat.exists_eq_add_of_le (Nat.le_of_not_lt h)
      have h0 : (16 + j) / 16 = j / 16 + 1 := by omega
      have h1 : (16 + j) % 16 = j % 16 := by omega
      rw [List.getElem?_append_right (by simp)]
      simp [h0, h1, ih]

@[simp] theorem length_memRead (s : State) (addr n : Nat) : (memRead s addr n).length = n := by simp [memRead]

@[simp] theorem length_inputBytes (s : State) : (inputBytes s).length = s.inlen.toNat := by simp [inputBytes]

theorem getElem?_inputBytes (s : State) (k : Nat) :
    (inputBytes s)[k]? = if k < s.inlen.toNat then some (s.inbuf.draw k (s.draws + k)) else none := by
  by_cases h : k < s.inlen.toNat <;> simp [inputBytes, memRead, h]

theorem length_pad (D : List Byte) : (pad D).length = 16 * (D.length / 16 + 1) := by
  simp [pad]; omega

/-- `unpad` keeps a front part of its argument. -/
theorem unpad_eq_take (D : List Byte) : unpad D = D.take (unpad D).length := by
  unfold unpad
  dsimp only
  split
  · simp
  · split <;> simp

theorem length_unpad_le (D : List Byte) : (unpad D).length ≤ D.length := by
  rw [unpad_eq_take D]; simp

@[simp] theorem length_cbcEncrypt (w : Schedule) (ch : Block) (ps : List Block) :
    (cbcEncrypt w ch ps).1.length = ps.length := by
  induction ps generalizing ch with
  | nil => rfl
  | cons p ps ih => simp [cbcEncrypt, ih]

@[simp] theorem length_cbcDecrypt (w : Schedule) (ch : Block) (it : Option Block) (cs : List Block) :
    (cbcDecrypt w ch it cs).1.length = cs.length := by
  induction cs generalizing ch it with
  | nil => rfl
  | cons c cs ih => simp [cbcDecrypt, ih]

end Sys2Proof.Machine
end

