-- ==== Sys2Proof/Laws/Memory.lean ====
section
/-! SUPPORT. The byte RAM: reading after writing, and that every operation keeps the canonical form. -/

namespace Sys2Proof.Machine.Memory

theorem byte?_nil (k : Nat) : byte? [] k = none := rfl

theorem byte?_cons (a : Nat) (b : Byte) (m : Memory) (k : Nat) :
    byte? ((a, b) :: m) k = if k = a then some b else byte? m k := rfl

/-- Reading after a write of one byte: the byte at the written offset, the old contents everywhere else. -/
theorem byte?_put (m : Memory) (k j : Nat) (v : Byte) :
    (m.put k v).byte? j = if j = k then some v else m.byte? j := by
  induction m with
  | nil => rfl
  | cons c m ih =>
    obtain ⟨a, b⟩ := c
    simp only [put]
    split
    · simp only [byte?_cons]
    · next hlt =>
      split
      · next he => subst he; simp only [byte?_cons]; split <;> rfl
      · next hne =>
        simp only [byte?_cons, ih]
        split
        · next ha => rw [if_neg (fun e => hne (e.symm.trans ha))]
        · rfl

/-- Reading after a write of one word. -/
theorem byte?_putWord (m : Memory) (k j : Nat) (d : Word) :
    (m.putWord k d).byte? j = if k ≤ j ∧ j < k + 4 then some (busByte d (j - k)) else m.byte? j := by
  simp only [putWord, byte?_put]
  by_cases h : k ≤ j ∧ j < k + 4
  · obtain ⟨i, rfl⟩ := Nat.exists_eq_add_of_le h.1
    have : i = 0 ∨ i = 1 ∨ i = 2 ∨ i = 3 := by omega
    rcases this with rfl | rfl | rfl | rfl <;> simp
  · have h3 : j ≠ k + 3 := by omega
    have h2 : j ≠ k + 2 := by omega
    have h1 : j ≠ k + 1 := by omega
    have h0 : j ≠ k := by omega
    simp [h, h0, h1, h2, h3]

/-- Reading the RAM that lists a byte sequence. -/
theorem byte?_ofBytes (bs : List Byte) (k j : Nat) :
    (ofBytes k bs).byte? j = if k ≤ j then bs[j - k]? else none := by
  induction bs generalizing k with
  | nil => simp [ofBytes, byte?_nil]
  | cons b bs ih =>
    simp only [ofBytes, byte?_cons, ih]
    rcases Nat.lt_trichotomy j k with h | rfl | h
    · simp [Nat.ne_of_lt h, Nat.not_le.2 h, Nat.not_le.2 (Nat.lt_succ_of_lt h)]
    · simp
    · obtain ⟨i, rfl⟩ := Nat.exists_eq_add_of_lt h
      have e1 : k + i + 1 ≠ k := by omega
      have e2 : k + i + 1 - k = i + 1 := by omega
      have e3 : k + i + 1 - (k + 1) = i := by omega
      have l1 : k + 1 ≤ k + i + 1 := by omega
      have l2 : k ≤ k + i + 1 := by omega
      simp [e1, e2, e3, l1, l2]

theorem byte?_ofBytes_zero (bs : List Byte) (j : Nat) : (ofBytes 0 bs).byte? j = bs[j]? := by
  simp [byte?_ofBytes]

/-- The canonical form as a fact about all pairs of neighbours, from the head on. -/
theorem wf_cons {a : Nat} {b : Byte} {m : Memory} :
    wf ((a, b) :: m) = true ↔ (∀ c ∈ m.head?, a < c.1) ∧ m.wf = true := by
  cases m with
  | nil => simp [wf]
  | cons c m => simp [wf]

theorem head_put {m : Memory} {k : Nat} {v : Byte} {c : Host.Cell} (h : c ∈ (m.put k v).head?) :
    c.1 = k ∨ c ∈ m.head? := by
  cases m with
  | nil => simp [put] at h; simp [← h]
  | cons d m =>
    obtain ⟨a, b⟩ := d
    simp only [put] at h
    split at h
    · simp at h; simp [← h]
    · split at h
      · simp at h; simp [← h]
      · right; simpa using h

/-- A write of one byte keeps the canonical form. -/
theorem wf_put {m : Memory} (k : Nat) (v : Byte) (h : m.wf = true) : (m.put k v).wf = true := by
  induction m with
  | nil => rfl
  | cons c m ih =>
    obtain ⟨a, b⟩ := c
    have hm := wf_cons.1 h
    simp only [put]
    split
    · next hk => exact wf_cons.2 ⟨by simpa using hk, h⟩
    · split
      · next hk => subst hk; exact wf_cons.2 hm
      · next h1 h2 =>
        refine wf_cons.2 ⟨fun c hc => ?_, ih hm.2⟩
        rcases head_put hc with e | e
        · omega
        · exact hm.1 c e

theorem wf_putWord {m : Memory} (k : Nat) (d : Word) (h : m.wf = true) : (m.putWord k d).wf = true :=
  wf_put _ _ (wf_put _ _ (wf_put _ _ (wf_put _ _ h)))

/-- The RAM that lists a byte sequence has the canonical form. -/
theorem wf_ofBytes (bs : List Byte) (k : Nat) : (ofBytes k bs).wf = true := by
  induction bs generalizing k with
  | nil => rfl
  | cons b bs ih =>
    refine wf_cons.2 ⟨fun c hc => ?_, ih _⟩
    cases bs with
    | nil => simp [ofBytes] at hc
    | cons b' bs => simp only [ofBytes, List.head?_cons, Option.mem_def, Option.some.injEq] at hc; simp [← hc]

theorem within_cons {cap a : Nat} {b : Byte} {m : Memory} :
    within cap ((a, b) :: m) = true ↔ a < cap ∧ m.within cap = true := by
  simp [within]

/-- A write below the capacity keeps every listed offset below it. -/
theorem within_put {cap : Nat} {m : Memory} {k : Nat} (v : Byte) (hk : k < cap) (h : m.within cap = true) :
    (m.put k v).within cap = true := by
  induction m with
  | nil => simp [put, within, hk]
  | cons c m ih =>
    obtain ⟨a, b⟩ := c
    have hm := within_cons.1 h
    simp only [put]
    split
    · exact within_cons.2 ⟨hk, h⟩
    · split
      · exact within_cons.2 ⟨hk, hm.2⟩
      · exact within_cons.2 ⟨hm.1, ih hm.2⟩

theorem within_putWord {cap : Nat} {m : Memory} {k : Nat} (d : Word) (hk : k + 4 ≤ cap) (h : m.within cap = true) :
    (m.putWord k d).within cap = true := by
  refine within_put _ ?_ (within_put _ ?_ (within_put _ ?_ (within_put _ ?_ h))) <;> omega

theorem within_ofBytes {cap : Nat} (bs : List Byte) (k : Nat) (h : k + bs.length ≤ cap) :
    (ofBytes k bs).within cap = true := by
  induction bs generalizing k with
  | nil => rfl
  | cons b bs ih =>
    simp only [List.length_cons] at h
    exact within_cons.2 ⟨by omega, ih _ (by omega)⟩

/-- A listed byte is what a reader gets; no draw is made of it. -/
theorem draw_of_byte? {m : Memory} {k : Nat} {b : Byte} (h : m.byte? k = some b) (n : Nat) : m.draw k n = b := by
  simp [draw, h]

/-- The memories of the reset state have the canonical form. -/
theorem reset_wf : State.reset.inbuf.wf = true ∧ State.reset.outbuf.wf = true := ⟨rfl, rfl⟩

end Sys2Proof.Machine.Memory
end

