-- ==== Sys2Proof/Laws/Bus.lean ====
section
/-! SUPPORT. Bus words and the address map: the bytes of a packed word, a window word read or written byte by byte, and
which addresses a target stands for. -/

namespace Sys2Proof.Machine

/-- Byte `j` of a packed word is the byte packed there (R41). -/
theorem busByte_packWord (b0 b1 b2 b3 : Byte) :
    busByte (packWord b0 b1 b2 b3) 0 = b0 ∧ busByte (packWord b0 b1 b2 b3) 1 = b1 ∧
      busByte (packWord b0 b1 b2 b3) 2 = b2 ∧ busByte (packWord b0 b1 b2 b3) 3 = b3 := by
  refine ⟨?_, ?_, ?_, ?_⟩ <;>
  · ext i hi
    interval_cases i <;> simp [busByte, packWord, BitVec.getLsbD_eq_getElem]

/-- A word is the packing of its four bytes (R41). -/
theorem packWord_busByte (d : Word) : packWord (busByte d 0) (busByte d 1) (busByte d 2) (busByte d 3) = d := by
  ext i hi
  interval_cases i <;> simp [busByte, packWord, BitVec.getLsbD_eq_getElem]

/-- Byte `j` of a window word (R41). -/
theorem busByte_windowWord {len : Nat} (v : Vector Byte len) (n : Nat) (h : 4 * n + 3 < len) (j : Nat) (hj : j < 4) :
    busByte (windowWord v n h) j = v[4 * n + j] := by
  have := busByte_packWord v[4 * n] v[4 * n + 1] v[4 * n + 2] v[4 * n + 3]
  interval_cases j
  · exact this.1
  · exact this.2.1
  · exact this.2.2.1
  · exact this.2.2.2

/-- A byte array after a bus write of one word, byte by byte (R41). -/
@[simp] theorem getElem_setWindowWord {len : Nat} (v : Vector Byte len) (n : Nat) (d : Word) (i : Nat) (h : i < len) :
    (setWindowWord v n d)[i] = if i / 4 = n then busByte d (i % 4) else v[i] := by
  simp [setWindowWord]

/-- A masked address is a multiple of 4 (R38). -/
theorem wordAddress_mod_four (a : Addr) : (wordAddress a).toNat % 4 = 0 := by
  have h : (a &&& 0x3FFFC#18) = (a &&& 0x3FFFC#18) &&& 0x3FFFC#18 := by rw [BitVec.and_assoc]; rfl
  have h0 : (wordAddress a).getLsbD 0 = false := by simp [wordAddress]
  have h1 : (wordAddress a).getLsbD 1 = false := by simp [wordAddress]
  have e : ∀ x : Nat, x.testBit 0 = false → x.testBit 1 = false → x % 4 = 0 := by
    intro x a0 a1
    have : x % 4 = (x % 2) + 2 * (x / 2 % 2) := by omega
    simp [Nat.testBit_succ] at a0 a1
    omega
  exact e _ h0 h1

/-- Masking an address twice is masking it once (R38). -/
theorem wordAddress_wordAddress (a : Addr) : wordAddress (wordAddress a) = wordAddress a := by
  simp only [wordAddress, BitVec.and_assoc]; rfl

theorem target_wordAddress (a : Addr) : target (wordAddress a) = target a := by
  unfold target
  rw [wordAddress_wordAddress]

/-! Where each part of the map lies (R40). -/

theorem targetAt_control {n : Nat} (h : n < 0x100) : targetAt n = controlTarget n := by simp [targetAt, h]

theorem targetAt_key {n o : Nat} (h : n = 0x100 + o) (ho : o < 32) : targetAt n = .key (Fin.ofNat 8 (o / 4)) := by
  subst h
  simp [targetAt, windowTarget, show 0x100 + o < 65536 by omega, show 0x100 + o ≤ 287 by omega]

theorem targetAt_state {n o : Nat} (h : n = 0x120 + o) (ho : o < 16) :
    targetAt n = .state (Fin.ofNat 4 (o / 4)) := by
  subst h
  simp [targetAt, windowTarget, show ¬ 0x120 + o < 256 by omega, show 0x120 + o < 65536 by omega,
    show ¬ 0x120 + o ≤ 287 by omega, show 0x120 + o ≤ 303 by omega]

theorem targetAt_chain {n o : Nat} (h : n = 0x130 + o) (ho : o < 16) :
    targetAt n = .chain (Fin.ofNat 4 (o / 4)) := by
  subst h
  simp [targetAt, windowTarget, show ¬ 0x130 + o < 256 by omega, show 0x130 + o < 65536 by omega,
    show ¬ 0x130 + o ≤ 287 by omega, show ¬ 0x130 + o ≤ 303 by omega, show 0x130 + o ≤ 319 by omega]

theorem targetAt_rk {n o : Nat} (h : n = 0x200 + o) (ho : o < 240) :
    targetAt n = .rk (Fin.ofNat 60 (o / 4)) := by
  subst h
  simp [targetAt, windowTarget, show ¬ 0x200 + o < 256 by omega, show 0x200 + o < 65536 by omega,
    show ¬ 0x200 + o ≤ 287 by omega, show ¬ 0x200 + o ≤ 303 by omega, show ¬ 0x200 + o ≤ 319 by omega,
    show ¬ 0x200 + o ≤ 511 by omega, show 0x200 + o ≤ 751 by omega]

theorem targetAt_inbuf {n o : Nat} (h : n = 0x10000 + o) (ho : o < 0x10000) : targetAt n = .inbuf o := by
  subst h
  simp [targetAt, bufferTarget, show ¬ 0x10000 + o < 256 by omega, show 0x10000 + o ≤ 131071 by omega]

theorem targetAt_outbuf {n o : Nat} (h : n = 0x20000 + o) (ho : o < 0x10000) : targetAt n = .outbuf o := by
  subst h
  simp [targetAt, bufferTarget, show ¬ 0x20000 + o < 256 by omega, show ¬ 0x20000 + o < 65536 by omega,
    show ¬ 0x20000 + o ≤ 131071 by omega, show 0x20000 + o ≤ 196607 by omega]

theorem targetAt_reserved {n : Nat}
    (h : (0x1C ≤ n ∧ n < 0x100) ∨ (0x140 ≤ n ∧ n < 0x200) ∨ (0x2F0 ≤ n ∧ n < 0x10000) ∨ 0x30000 ≤ n) :
    targetAt n = .reserved := by
  unfold targetAt
  split
  · unfold controlTarget
    repeat' split
    all_goals first | rfl | omega
  · split
    · unfold windowTarget
      repeat' split
      all_goals first | rfl | omega
    · unfold bufferTarget
      repeat' split
      all_goals first | rfl | omega

theorem targetAt_eq_status (n : Nat) : targetAt n = .status ↔ n = 4 := by
  constructor
  · intro h
    unfold targetAt controlTarget windowTarget bufferTarget at h
    split at h
    · repeat' split at h
      all_goals first | assumption | cases h
    · split at h
      · repeat' split at h
        all_goals cases h
      · repeat' split at h
        all_goals cases h
  · rintro rfl; rfl

/-- The STATUS address and no other word address reaches STATUS (R40). -/
theorem target_eq_status (a : Addr) : target a = .status ↔ a &&& 0x3FFFC = 0x00004 := by
  rw [target, targetAt_eq_status, wordAddress, ← BitVec.toNat_inj]
  rfl

end Sys2Proof.Machine
end

