-- ==== Sys2Proof/Laws/Commands.lean ====
section
/-! SUPPORT. What the two CBC effects write, said once, so that no proof unfolds them: which fields change and to what. -/

namespace Sys2Proof.Machine

/-- CBCENC's chaining result: the ciphertext blocks and the last one. -/
def encryptRun (s : State) : List Block × Block :=
  cbcEncrypt (expand s.key) zeroBlock (blocksOf (pad (inputBytes s)))

/-- CBCDEC's chaining result: the plaintext blocks, the last ciphertext block and the last intermediate block. -/
def decryptRun (s : State) : List Block × Block × Option Block :=
  cbcDecrypt (expand s.key) zeroBlock none (blocksOf (inputBytes s))

/-- All that CBCENC writes with a valid key (R114). -/
theorem cbcEncryptInput_eq (s : State) : cbcEncryptInput s =
    { s with rk := expand s.key, schedValid := true, chain := (encryptRun s).2, state := (encryptRun s).2,
             outbuf := Memory.ofBytes 0 (bytesOf (encryptRun s).1),
             outlen := BitVec.ofNat 32 (bytesOf (encryptRun s).1).length,
             errcode := eNone, draws := s.draws + s.inlen.toNat } := by
  unfold cbcEncryptInput encryptRun
  simp only [succeed, pastDraws, storeOutput, withState, withChain, withSchedule, List.take_length]

/-- All that CBCDEC writes with a valid key and an aligned input (R115). -/
theorem cbcDecryptInput_eq (s : State) : cbcDecryptInput s =
    { s with rk := expand s.key, schedValid := true, chain := (decryptRun s).2.1,
             state := (decryptRun s).2.2.getD s.state,
             outbuf := Memory.ofBytes 0 (unpad (bytesOf (decryptRun s).1)),
             outlen := BitVec.ofNat 32 (unpad (bytesOf (decryptRun s).1)).length,
             errcode := eNone, draws := s.draws + s.inlen.toNat } := by
  unfold cbcDecryptInput decryptRun
  dsimp only
  generalize cbcDecrypt (expand s.key) zeroBlock none (blocksOf (inputBytes s)) = r
  obtain ⟨m, l, o⟩ := r
  cases o <;>
    simp only [succeed, pastDraws, storeOutput, withLastBlock, withState, withChain, withSchedule, ← unpad_eq_take,
      Option.getD_some, Option.getD_none]

/-- The ciphertext is as long as the padded input (R109, R112). -/
theorem length_encryptRun (s : State) : (bytesOf (encryptRun s).1).length = 16 * (s.inlen.toNat / 16 + 1) := by
  simp [encryptRun, length_pad]

/-- The plaintext buffer is as long as an aligned input (R113). -/
theorem length_decryptRun {s : State} (h : s.inlen.toNat % 16 = 0) :
    (bytesOf (decryptRun s).1).length = s.inlen.toNat := by
  simp [decryptRun]; omega

end Sys2Proof.Machine
end

