-- ==== Sys2Proof/Laws/Exec.lean ====
section
/-! SUPPORT. What `exec` does, said once for all commands: what every command leaves, and the commands run one after
another. -/

namespace Sys2Proof.Machine

/-- All that a command may write. Everything else stays as it is. -/
theorem exec_frame {i : Instr} {s t : State} (h : exec i s = .next t) :
    t = { s with state := t.state, chain := t.chain, rk := t.rk, schedValid := t.schedValid, outlen := t.outlen,
                 result := t.result, overrun := t.overrun, errcode := t.errcode, outbuf := t.outbuf,
                 draws := t.draws } := by
  cases i <;> simp only [exec] at h
  all_goals simp only [execNop, execClrstat, execGfmul, execXtime, execSbox, execInvsbox, execKeyexp, execSubbytes,
    execShiftrows, execMixcolumns, execInvsubbytes, execInvshiftrows, execInvmixcolumns, execAddrk, execEncblock,
    execDecblock, execCbcenc, execCbcdec, execPad, execUnpad, cbcencAt, cbcdecAt, padAt, unpadAt, cbcEncryptInput_eq,
    cbcDecryptInput_eq] at h
  all_goals (repeat' split at h)
  all_goals (injection h with h; subst h)
  all_goals simp only [succeed, raise, withOverrun, withResult, withState, withSchedule, emptyOutput,
    storeOutput, pastDraws, transformState, overCapacity, emptyResult]

/-- No command reads what the host still does. -/
theorem exec_withHost {i : Instr} {s t : State} (hs : List HostEvent) (h : exec i s = .next t) :
    exec i { s with host := hs } = .next { t with host := hs } := by
  have hf : inputBytes { s with host := hs } = inputBytes s := rfl
  cases i <;> simp only [exec] at h ⊢
  all_goals simp only [execNop, execClrstat, execGfmul, execXtime, execSbox, execInvsbox, execKeyexp, execSubbytes,
    execShiftrows, execMixcolumns, execInvsubbytes, execInvshiftrows, execInvmixcolumns, execAddrk, execEncblock,
    execDecblock, execCbcenc, execCbcdec, execPad, execUnpad, cbcencAt, cbcdecAt, padAt, unpadAt, cbcEncryptInput_eq,
    cbcDecryptInput_eq, encryptRun, decryptRun, hf] at h ⊢
  all_goals (repeat' split at h)
  all_goals (injection h with h; subst h)
  all_goals try simp only [*, if_true, if_false, dif_pos, dif_neg, Bool.false_eq_true, not_false_eq_true]
  all_goals simp only [succeed, raise, withOverrun, withResult, withState, withSchedule, emptyOutput, storeOutput,
    pastDraws, transformState, overCapacity, emptyResult]
  all_goals simp_all

/-- ADDRK r with a valid schedule (R99). -/
theorem exec_addrk_valid {r : BitVec 4} (h : r.toNat < 15) {s : State} (hv : s.schedValid = true) :
    exec (.addrk r) s = .next (transformState (addRoundKey s.rk ⟨r.toNat, h⟩) s) := by
  simp only [exec, execAddrk]; rw [dif_pos h, if_pos hv]

theorem exec_encblock_valid {s : State} (hv : s.schedValid = true) :
    exec .encblock s = .next (transformState (fun b => encryptBlock b s.rk) s) := by
  simp only [exec, execEncblock]; rw [if_pos hv]

theorem exec_decblock_valid {s : State} (hv : s.schedValid = true) :
    exec .decblock s = .next (transformState (fun b => decryptBlock b s.rk) s) := by
  simp only [exec, execDecblock]; rw [if_pos hv]

theorem exec_cbcenc_valid {s : State} (hk : s.keylen = 32) (hc : s.inlen.toNat < Config.bufBytes) :
    exec .cbcenc s = .next (cbcEncryptInput s) := by
  simp only [exec, execCbcenc, cbcencAt, Nat.not_le.2 hc, if_false, hk, ne_eq, not_true_eq_false]

theorem exec_cbcdec_valid {s : State} (hk : s.keylen = 32) (hc : s.inlen.toNat ≤ Config.bufBytes)
    (ha : s.inlen.toNat % 16 = 0) : exec .cbcdec s = .next (cbcDecryptInput s) := by
  simp only [exec, execCbcdec, cbcdecAt, Nat.not_lt.2 hc, if_false, hk, ha, ne_eq, not_true_eq_false, or_self]

/-- A command list that completes to `t` leaves the rest to run from `t`. -/
theorem runCommands_append {is js : List Instr} {s t : State} (h : runCommands is s = .next t) :
    runCommands (is ++ js) s = runCommands js t := by
  induction is generalizing s with
  | nil => simp only [runCommands, Host.Outcome.next.injEq] at h; rw [h]; rfl
  | cons i is ih =>
    simp only [List.cons_append, runCommands] at h ⊢
    split at h <;> first | exact ih h | cases h

/-- What a buffer command's store leaves: OUTLEN and a RAM that lists exactly the valid bytes (R33). -/
theorem storeOutput_facts (v : List Byte) {n : Nat} (s : State) (hc : n < 2 ^ 32) :
    (storeOutput v n s).outlen.toNat = n ∧ ∀ k, (storeOutput v n s).outbuf.byte? k = (v.take n)[k]? := by
  refine ⟨?_, fun k => ?_⟩
  · simp; omega
  · simp [storeOutput, Memory.byte?_ofBytes_zero]

end Sys2Proof.Machine
end

