-- ==== Sys2Proof/Laws/Step.lean ====
section
/-! SUPPORT. What a step and a completion can do, said once. -/

namespace Sys2Proof.Machine

/-- BUF_BYTES is a multiple of 16 from 16 to 65536 (R7). -/
theorem bufBytes_bounds : 16 ≤ Config.bufBytes ∧ Config.bufBytes ≤ 65536 ∧ Config.bufBytes % 16 = 0 := by
  have := Config.bufBlocks.isLt
  unfold Config.bufBytes
  omega

/-- Every meaning answers a next state in every state. -/
theorem exec_answers (i : Instr) (s : State) : ∃ t, exec i s = .next t := by
  cases i <;> simp only [exec] <;>
    first
    | exact ⟨_, rfl⟩
    | (simp only [execAddrk, execEncblock, execDecblock]; repeat' split)
  all_goals exact ⟨_, rfl⟩

/-- A completion either runs the meaning of the decoded command or reports E_ILLEGAL, and then goes idle (R65). -/
theorem complete_cases {w : Word} {s t : State} (h : complete w s = .next t) :
    ∃ u, t = goIdle u ∧ ((∃ i, decode w = .command i ∧ exec i s = .next u) ∨
      (∃ why, decode w = .illegal why ∧ u = raise eIllegal s)) := by
  unfold complete at h
  split at h
  · next i hi =>
    obtain ⟨u, hu⟩ := exec_answers i s
    rw [hu] at h
    simp only [thenIdle, Host.Outcome.next.injEq] at h
    exact ⟨u, h.symm, .inl ⟨i, hi, hu⟩⟩
  · next why hi =>
    simp only [thenIdle, Host.Outcome.next.injEq] at h
    exact ⟨_, h.symm, .inr ⟨why, hi, rfl⟩⟩

theorem complete_answers (w : Word) (s : State) : ∃ t, complete w s = .next t := by
  unfold complete
  split
  · next i _ => obtain ⟨u, hu⟩ := exec_answers i s; rw [hu]; exact ⟨_, rfl⟩
  · exact ⟨_, rfl⟩

/-- The step under reset: the host's turn. -/
theorem step_inReset {s : State} (h : s.resetLine = true) : step s = .next (hostAccessInReset s) := by
  simp [step, turn, h]

/-- The step with BUSY = 0: the host's turn. -/
theorem step_idle {s : State} (h : Idle s) : step s = .next (hostAccess Config.bufBytes s) := by
  simp [step, turn, h.released, h.noCommand]

/-- The step that completes the pending command. -/
theorem step_due {w : Word} {s : State} (h : Due w s) : step s = complete w s := by
  simp [step, turn, h.released, h.pending, h.turn]

/-- The step in which the host has its turn before the pending command completes. -/
theorem step_busyBefore {n : Nat} {s : State} (h : BusyBefore n s) :
    step s = .next (hostAccess Config.bufBytes { s with delay := n }) := by
  obtain ⟨w, hw⟩ := Option.isSome_iff_exists.1 h.pending
  simp [step, turn, h.released, hw, h.delay]

/-- All that a step can do. -/
theorem step_cases (s : State) :
    (s.resetLine = true ∧ step s = .next (hostAccessInReset s)) ∨
    (Idle s ∧ step s = .next (hostAccess Config.bufBytes s)) ∨
    (∃ w, Due w s ∧ step s = complete w s) ∨
    (∃ n, BusyBefore n s ∧ step s = .next (hostAccess Config.bufBytes { s with delay := n })) := by
  by_cases hr : s.resetLine = true
  · exact .inl ⟨hr, step_inReset hr⟩
  · have hr : s.resetLine = false := by simpa using hr
    by_cases hp : s.pending = none
    · exact .inr (.inl ⟨⟨hr, hp⟩, step_idle ⟨hr, hp⟩⟩)
    · obtain ⟨w, hp⟩ := Option.ne_none_iff_exists'.1 hp
      by_cases hd : s.delay = 0
      · exact .inr (.inr (.inl ⟨w, ⟨hr, hp, hd⟩, step_due ⟨hr, hp, hd⟩⟩))
      · obtain ⟨n, hn⟩ := Nat.exists_eq_succ_of_ne_zero hd
        have hb : BusyBefore n s := ⟨hr, by simp [State.busy, hp], hn⟩
        exact .inr (.inr (.inr ⟨n, hb, step_busyBefore hb⟩))

end Sys2Proof.Machine
end

