-- ==== Sys2Proof/Laws/HostAccess.lean ====
section
/-! SUPPORT. What a step on a host access does, by who acts: BUSY = 0 or BUSY = 1. The proofs over the bus cite these and
unfold neither the step nor the bus. -/

namespace Sys2Proof.Machine

theorem Idle.busy_eq {s : State} (h : Idle s) : s.busy = false := by simp [State.busy, h.noCommand]

/-- All that a bus write with BUSY = 0 may write (R48). Everything else stays as it is. -/
theorem idleWrite_frame (cap : Nat) (d : Word) (s : State) (tgt : Target) :
    idleWrite cap d s tgt =
      { s with key := (idleWrite cap d s tgt).key, keylen := (idleWrite cap d s tgt).keylen,
               state := (idleWrite cap d s tgt).state, schedValid := (idleWrite cap d s tgt).schedValid,
               inlen := (idleWrite cap d s tgt).inlen, opndA := (idleWrite cap d s tgt).opndA,
               opndB := (idleWrite cap d s tgt).opndB, pending := (idleWrite cap d s tgt).pending,
               inbuf := (idleWrite cap d s tgt).inbuf, delay := (idleWrite cap d s tgt).delay,
               draws := (idleWrite cap d s tgt).draws } := by
  cases tgt <;> simp only [idleWrite, accept, pastDraws, latch, withOpnd, withState]
  split <;> rfl

/-- Only a write to CMD makes a command pending (R64). -/
theorem idleWrite_pending {cap : Nat} {d : Word} {s : State} {tgt : Target} (h : tgt ≠ .cmd) :
    (idleWrite cap d s tgt).pending = s.pending := by
  cases tgt <;> first | exact absurd rfl h | (simp only [idleWrite, withOpnd, withState]; try split <;> rfl)

/-- Only a write to an INBUF word within the capacity changes INBUF (R44). -/
theorem idleWrite_inbuf (cap : Nat) (d : Word) (s : State) (tgt : Target) :
    (idleWrite cap d s tgt).inbuf = s.inbuf ∨
      ∃ k, k + 4 ≤ cap ∧ tgt = .inbuf k ∧ (idleWrite cap d s tgt).inbuf = s.inbuf.putWord k d := by
  cases tgt
  case inbuf k =>
    by_cases h : k + 4 ≤ cap
    · exact .inr ⟨k, h, rfl, by simp only [idleWrite, h, if_true]⟩
    · exact .inl (by simp only [idleWrite, h, if_false])
  all_goals exact .inl (by simp only [idleWrite, accept, pastDraws, latch, withOpnd, withState])

/-- A write that leaves SCHED_VALID = 1 has left KEY as it was (R22). -/
theorem idleWrite_key {cap : Nat} {d : Word} {s : State} {tgt : Target}
    (h : (idleWrite cap d s tgt).schedValid = true) : s.schedValid = true ∧ (idleWrite cap d s tgt).key = s.key := by
  cases tgt
  case key n => simp only [idleWrite, Bool.false_eq_true] at h
  case inbuf k =>
    by_cases hk : k + 4 ≤ cap <;> simp only [idleWrite, hk, if_true, if_false] at h ⊢ <;> exact ⟨h, trivial⟩
  all_goals
    simp only [idleWrite, accept, pastDraws, latch, withOpnd, withState] at h ⊢
    exact ⟨h, trivial⟩

/-- The step on a bus write with BUSY = 0 (R48). -/
theorem step_idle_write {s : State} {a : Addr} {d : Word} {rest : List HostEvent} (h : Idle s)
    (hh : s.host = .write a d :: rest) :
    step s = .next (idleWrite Config.bufBytes d { s with host := rest } (target a)) := by
  have hb : State.busy { s with host := rest } = false := h.busy_eq
  rw [step_idle h]
  simp [hostAccess, hh, busWrite, hb]

/-- The step on a bus read with BUSY = 0 (R48). -/
theorem step_idle_read {s : State} {a : Addr} {rest : List HostEvent} (h : Idle s) (hh : s.host = .read a :: rest) :
    step s = .next { s with
      rdata := some (idleReadWord Config.bufBytes { s with host := rest } (target a))
      host := rest, draws := s.draws + 4 } := by
  have hb : State.busy { s with host := rest } = false := h.busy_eq
  rw [step_idle h]
  simp [hostAccess, hh, busRead, readWord, hb]

/-- The step on a bus write with BUSY = 1 (R49). -/
theorem step_busy_write {n : Nat} {s : State} {a : Addr} {d : Word} {rest : List HostEvent} (h : BusyBefore n s)
    (hh : s.host = .write a d :: rest) :
    step s = .next { s with overrun := true, host := rest, delay := n } := by
  have hp := h.pending
  simp only [State.busy] at hp
  rw [step_busyBefore h]
  simp [hostAccess, hh, busWrite, State.busy, hp, withOverrun]

/-- The word a read returns with BUSY = 1 (R50). -/
theorem readWord_busy {cap : Nat} {s : State} (h : s.busy = true) (a : Addr) :
    readWord cap s a = if a &&& 0x3FFFC = 0x00004 then statusWord s else Config.freeWord s.draws := by
  unfold readWord
  split
  · next h2 => rw [if_pos ((target_eq_status a).1 h2)]
  · next h2 => rw [if_neg fun e => h2 ((target_eq_status a).2 e)]
  · next hf => rw [h] at hf; cases hf

/-- STATUS does not depend on the model's own fields. -/
theorem statusWord_of {s t : State} (he : s.errcode = t.errcode) (ho : s.overrun = t.overrun)
    (hv : s.schedValid = t.schedValid) (hp : s.pending = t.pending) : statusWord s = statusWord t := by
  simp [statusWord, State.busy, he, ho, hv, hp]

/-- A run of `n + 1` steps is a step and a run of `n`. -/
theorem run_succ_of_step {s t : State} (n : Nat) (h : step s = .next t) :
    Host.Core.run Sys2Proof.core (n + 1) s = Host.Core.run Sys2Proof.core n t := by
  have e : Sys2Proof.core.step s = .next t := h
  simp [Host.Core.run, e]

theorem run_zero (s : State) : Host.Core.run Sys2Proof.core 0 s = .next s := rfl

end Sys2Proof.Machine
end

