-- ==== Sys2Proof/Laws/PerInstr.lean ====
section
/-! SUPPORT. Statements made per instruction: the family TableMatch compares the encoder with the rows of R61's table. -/

namespace Sys2Proof.Laws.TableMatch

/-- The mask of each row of R61: the RIDX bits are free for ADDRK only. -/
def mask : Instr → Word
  | .addrk _ => 0xFFFFF0FF
  | _ => 0xFFFFFFFF

/-- The word of each row of R61 under its mask. -/
def word : Instr → Word
  | .nop => 0x00000000
  | .clrstat => 0x00000001
  | .gfmul => 0x00000010
  | .xtime => 0x00000011
  | .sbox => 0x00000012
  | .invsbox => 0x00000013
  | .keyexp => 0x00000020
  | .subbytes => 0x00000030
  | .shiftrows => 0x00000031
  | .mixcolumns => 0x00000032
  | .addrk _ => 0x00000033
  | .invsubbytes => 0x00000034
  | .invshiftrows => 0x00000035
  | .invmixcolumns => 0x00000036
  | .encblock => 0x00000040
  | .decblock => 0x00000041
  | .cbcenc => 0x00000050
  | .cbcdec => 0x00000051
  | .pad => 0x00000052
  | .unpad => 0x00000053

/-- The encoder gives the row's word under the row's mask. -/
def Statement (i : Instr) : Prop := encode i &&& mask i = word i

theorem nop : Statement .nop := rfl
theorem clrstat : Statement .clrstat := rfl
theorem gfmul : Statement .gfmul := rfl
theorem xtime : Statement .xtime := rfl
theorem sbox : Statement .sbox := rfl
theorem invsbox : Statement .invsbox := rfl
theorem keyexp : Statement .keyexp := rfl
theorem subbytes : Statement .subbytes := rfl
theorem shiftrows : Statement .shiftrows := rfl
theorem mixcolumns : Statement .mixcolumns := rfl
theorem addrk (r : BitVec 4) : Statement (.addrk r) := by
  show encode (.addrk r) &&& 0xFFFFF0FF#32 = 0x00000033#32
  revert r
  decide
theorem invsubbytes : Statement .invsubbytes := rfl
theorem invshiftrows : Statement .invshiftrows := rfl
theorem invmixcolumns : Statement .invmixcolumns := rfl
theorem encblock : Statement .encblock := rfl
theorem decblock : Statement .decblock := rfl
theorem cbcenc : Statement .cbcenc := rfl
theorem cbcdec : Statement .cbcdec := rfl
theorem pad : Statement .pad := rfl
theorem unpad : Statement .unpad := rfl

end Sys2Proof.Laws.TableMatch
end

