-- ==== Sys2Proof/Tests/Slice0.lean ====
section
/-! SUPPORT. Tests of the definitions against values the spec prints (95_test_vectors.md, and the examples of the rules),
and for every statement with hypotheses a witness that meets them. -/

namespace Sys2Proof.Tests

open Sys2Proof.Machine

/-! ### Helpers -/

/-- A block written as the spec writes it, byte 0 first. -/
def hexBlock (n : Nat) : Block := Vector.ofFn fun i => BitVec.ofNat 8 (n / 256 ^ (15 - i.val))

/-- Key K1 of 95_test_vectors.md: bytes 00 to 1f. -/
def keyK1 : Key := Vector.ofFn fun i => BitVec.ofNat 8 i.val

/-- Key K1's schedule as 95_test_vectors.md section 3.3 prints it, round key by round key. -/
def scheduleK1 : Schedule :=
  let rows : List Nat :=
    [0x000102030405060708090a0b0c0d0e0f, 0x101112131415161718191a1b1c1d1e1f, 0xa573c29fa176c498a97fce93a572c09c,
     0x1651a8cd0244beda1a5da4c10640bade, 0xae87dff00ff11b68a68ed5fb03fc1567, 0x6de1f1486fa54f9275f8eb5373b8518d,
     0xc656827fc9a799176f294cec6cd5598b, 0x3de23a75524775e727bf9eb45407cf39, 0x0bdc905fc27b0948ad5245a4c1871c2f,
     0x45f5a66017b2d387300d4d33640a820a, 0x7ccff71cbeb4fe5413e6bbf0d261a7df, 0xf01afafee7a82979d7a5644ab3afe640,
     0x2541fe719bf500258813bbd55a721c0a, 0x4e5a6699a9f24fe07e572baacdf8cdea, 0x24fc79ccbf0979e9371ac23c6d68de36]
  Vector.ofFn fun i => BitVec.ofNat 8 (rows.getD (i.val / 16) 0 / 256 ^ (15 - i.val % 16))

/-- The reset state with K1 loaded and its printed schedule valid. -/
def keyed (b : Block) : State :=
  { State.reset with key := keyK1, keylen := 32, rk := scheduleK1, schedValid := true, state := b }

/-- The reset state with OPND set. -/
def withOperands (a b : Byte) : State := { State.reset with opndA := a, opndB := b }

/-- The reset state with an input loaded. -/
def withInput (bs : List Byte) : State :=
  { State.reset with inbuf := Memory.ofBytes 0 bs, inlen := BitVec.ofNat 32 bs.length }

/-- What a test reads from a next state. -/
def after {α : Type} (o : Host.Outcome State Fault Refusal) (f : State → α) : Option α :=
  match o with
  | .next t => some (f t)
  | .fault _ => none
  | .refused _ => none

/-- The bytes OUTBUF[0..OUTLEN) as held. -/
def output (s : State) : List (Option Byte) := (List.range s.outlen.toNat).map s.outbuf.byte?

/-! ### Well-formedness (R59) -/

theorem test_addrk_fifteen_is_ill_formed : ¬ (Instr.addrk 15).WellFormed := by decide
theorem test_addrk_fourteen_is_well_formed : (Instr.addrk 14).WellFormed := by decide

/-! ### Decoding: words written out from R57 and R61 -/

theorem test_decode_control : decode 0x00000000 = .command .nop ∧ decode 0x00000001 = .command .clrstat := by decide
theorem test_decode_gf : decode 0x00000010 = .command .gfmul ∧ decode 0x00000011 = .command .xtime := by decide
theorem test_decode_tables : decode 0x00000012 = .command .sbox ∧ decode 0x00000013 = .command .invsbox := by decide
theorem test_decode_keyexp : decode 0x00000020 = .command .keyexp := by decide
theorem test_decode_rounds :
    decode 0x00000030 = .command .subbytes ∧ decode 0x00000031 = .command .shiftrows ∧
    decode 0x00000032 = .command .mixcolumns ∧ decode 0x00000034 = .command .invsubbytes ∧
    decode 0x00000035 = .command .invshiftrows ∧ decode 0x00000036 = .command .invmixcolumns := by decide
/-- "Legal words with a nonzero RIDX: 0x00000033 to 0x00000E33 only" (95 section 3.10). -/
theorem test_decode_addrk :
    decode 0x00000033 = .command (.addrk 0) ∧ decode 0x00000133 = .command (.addrk 1) ∧
    decode 0x00000E33 = .command (.addrk 14) ∧ decode 0x00000F33 = .illegal .roundIndex := by decide
theorem test_decode_block : decode 0x00000040 = .command .encblock ∧ decode 0x00000041 = .command .decblock := by decide
theorem test_decode_cbc :
    decode 0x00000050 = .command .cbcenc ∧ decode 0x00000051 = .command .cbcdec ∧
    decode 0x00000052 = .command .pad ∧ decode 0x00000053 = .command .unpad := by decide
/-- The ILLEGAL words of 95 section 3.10. -/
theorem test_decode_illegal :
    ([0x00000002, 0x0000000F, 0x00000014, 0x00000021, 0x00000037, 0x00000042, 0x00000054, 0x000000FF, 0x00001030,
      0x80000050, 0x00000110, 0x00000F33] : List Word).all
      (fun w => match decode w with | .illegal _ => true | .command _ => false) = true := by decide
theorem test_encode_addrk : encode (.addrk 14) = 0x00000E33 ∧ encode .unpad = 0x00000053 := by decide
theorem test_table_word : decodeTableWord 32 0x00000733 = some (.addrk 7) ∧ decodeTableWord 32 0x00000731 = none := by
  decide

/-! ### Control commands (95 section 3.9) -/

theorem test_nop_clears_errcode_only :
    after (exec .nop { State.reset with errcode := 2, overrun := true, schedValid := true }) statusWord
      = some 0x00000006 := by decide
theorem test_clrstat :
    after (exec .clrstat { State.reset with errcode := 3, overrun := true, schedValid := true }) statusWord
      = some 0x00000002 := by decide

/-! ### Byte commands (95 sections 3.1 and 3.2) -/

theorem test_gfmul : after (exec .gfmul (withOperands 0x57 0x83)) (·.result) = some 0xC1 := by decide
theorem test_gfmul_two_reductions : after (exec .gfmul (withOperands 0x80 0x80)) (·.result) = some 0x9A := by decide
theorem test_xtime_reduces : after (exec .xtime (withOperands 0xAE 0xFF)) (·.result) = some 0x47 := by decide
theorem test_xtime_keeps : after (exec .xtime (withOperands 0x7F 0x00)) (·.result) = some 0xFE := by decide
theorem test_sbox : after (exec .sbox (withOperands 0x53 0xFF)) (·.result) = some 0xED := by decide
theorem test_sbox_row : sbox 0x5B = 0x39 ∧ sbox 0x83 = 0xEC := by decide
theorem test_invsbox : after (exec .invsbox (withOperands 0xED 0x00)) (·.result) = some 0x53 := by decide
theorem test_invsbox_row : invSbox 0x83 = 0x41 ∧ invSbox 0x7C = 0x01 := by decide

/-! ### Key schedule (95 section 3.3) -/

/-- The first eight words after the key under K1: round keys 2 and 3, which the `i mod 8 = 4` branch reaches. -/
theorem test_expand_words :
    (expandWords keyK1 8).drop 8 =
      [⟨0xa5, 0x73, 0xc2, 0x9f⟩, ⟨0xa1, 0x76, 0xc4, 0x98⟩, ⟨0xa9, 0x7f, 0xce, 0x93⟩, ⟨0xa5, 0x72, 0xc0, 0x9c⟩,
       ⟨0x16, 0x51, 0xa8, 0xcd⟩, ⟨0x02, 0x44, 0xbe, 0xda⟩, ⟨0x1a, 0x5d, 0xa4, 0xc1⟩, ⟨0x06, 0x40, 0xba, 0xde⟩] := by
  decide +kernel
/-- R83: "RCON[j] = xtime^(j-1)(0x01) for j >= 1", and index 0 is 0x00. -/
theorem test_rcon :
    rcon.length = 11 ∧ rcon.getD 0 1 = 0 ∧ ∀ j : Fin 10, rcon.getD (j.val + 1) 0 = xtime^[j.val] 0x01 := by decide
theorem test_keyexp_sets_status :
    after (exec .keyexp { State.reset with errcode := 2, keylen := 7 }) statusWord = some 0x00000002 := by decide

/-! ### Round commands: the first round of T-KAT-1 and the lane vectors (95 section 3.4) -/

theorem test_addrk_zero :
    after (exec (.addrk 0) (keyed (hexBlock 0x00112233445566778899aabbccddeeff))) (·.state)
      = some (hexBlock 0x00102030405060708090a0b0c0d0e0f0) := by decide +kernel
theorem test_addrk_one :
    after (exec (.addrk 1) (keyed (hexBlock 0x5f72641557f5bc92f7be3b291db9f91a))) (·.state)
      = some (hexBlock 0x4f63760643e0aa85efa7213201a4e705) := by decide +kernel
theorem test_subbytes :
    after (exec .subbytes (keyed (hexBlock 0x00102030405060708090a0b0c0d0e0f0))) (·.state)
      = some (hexBlock 0x63cab7040953d051cd60e0e7ba70e18c) := by decide +kernel
theorem test_shiftrows :
    after (exec .shiftrows (keyed (hexBlock 0x000102030405060708090a0b0c0d0e0f))) (·.state)
      = some (hexBlock 0x00050a0f04090e03080d02070c01060b) := by decide +kernel
theorem test_mixcolumns :
    after (exec .mixcolumns (keyed (hexBlock 0xdb135345f20a225c01010101c6c6c6c6))) (·.state)
      = some (hexBlock 0x8e4da1bc9fdc589d01010101c6c6c6c6) := by decide +kernel
theorem test_mixcolumns_round :
    after (exec .mixcolumns (keyed (hexBlock 0x6353e08c0960e104cd70b751bacad0e7))) (·.state)
      = some (hexBlock 0x5f72641557f5bc92f7be3b291db9f91a) := by decide +kernel
theorem test_invsubbytes :
    after (exec .invsubbytes (keyed (hexBlock 0x63cab7040953d051cd60e0e7ba70e18c))) (·.state)
      = some (hexBlock 0x00102030405060708090a0b0c0d0e0f0) := by decide +kernel
theorem test_invshiftrows :
    after (exec .invshiftrows (keyed (hexBlock 0x000102030405060708090a0b0c0d0e0f))) (·.state)
      = some (hexBlock 0x000d0a0704010e0b0805020f0c090603) := by decide +kernel
theorem test_invmixcolumns :
    after (exec .invmixcolumns (keyed (hexBlock 0x5f72641557f5bc92f7be3b291db9f91a))) (·.state)
      = some (hexBlock 0x6353e08c0960e104cd70b751bacad0e7) := by decide +kernel

/-! ### Block commands: T-KAT-1 (95 sections 3.4 and 3.5) -/

theorem test_encblock :
    after (exec .encblock (keyed (hexBlock 0x00112233445566778899aabbccddeeff))) (·.state)
      = some (hexBlock 0x8ea2b7ca516745bfeafc49904b496089) := by decide +kernel
/-- An inner round of R104, from the values of 95 section 3.4: InvMixColumns comes after AddRoundKey. -/
theorem test_decblock_round :
    decRound scheduleK1 (shiftRows (subBytes (hexBlock 0x4f63760643e0aa85efa7213201a4e705))) 1
      = hexBlock 0x6353e08c0960e104cd70b751bacad0e7 := by decide +kernel
theorem test_no_schedule :
    after (exec .encblock State.reset) statusWord = some 0x00000020 ∧
    after (exec .decblock State.reset) statusWord = some 0x00000020 ∧
    after (exec (.addrk 0) State.reset) statusWord = some 0x00000020 := by decide

/-! ### Padding and CBC, with BUF_BYTES = 64 (95 sections 3.6 to 3.10) -/

theorem test_pad :
    output (padAt 64 (withInput [0xa0])) = (0xa0 :: List.replicate 15 0x0f).map some := by decide
/-- An aligned input gets a whole block of padding. -/
theorem test_pad_aligned : pad (List.replicate 16 0x07) = List.replicate 16 0x07 ++ List.replicate 16 0x10 := by decide
theorem test_unpad :
    output (unpadAt 64 (withInput [0xaa, 0x01])) = [some 0xaa] ∧ output (unpadAt 64 (withInput [2, 2])) = [] := by
  decide
/-- "05 05 05 (p = 5 > n: no removal)", and the mismatches of 95 section 3.6. -/
theorem test_unpad_mismatch :
    unpad [5, 5, 5] = [5, 5, 5] ∧ unpad (0x0f :: List.replicate 15 0x10) = 0x0f :: List.replicate 15 0x10 ∧
    unpad [1, 0x00] = [1, 0x00] ∧ unpad (List.replicate 17 0x11) = List.replicate 17 0x11 := by decide
/-- Capacity comes before the key (95 section 3.10). -/
theorem test_cbcenc_capacity :
    (cbcencAt 64 { State.reset with inlen := 64, keylen := 31 }).errcode = 3 ∧
    (cbcencAt 64 { State.reset with inlen := 63, keylen := 31 }).errcode = 0 := by decide
/-- "encryptBlock of the all-16 block" for the empty input (T-SRC-1). -/
theorem test_cbc_encrypt_empty :
    (cbcEncrypt scheduleK1 zeroBlock (blocksOf (pad []))).1 =
      [encryptBlock (hexBlock 0x10101010101010101010101010101010) scheduleK1] := by
  have e : xorBlock (blockAt (pad []) 0) zeroBlock = hexBlock 0x10101010101010101010101010101010 := by decide +kernel
  rw [← e]; rfl
theorem test_cbcdec_misaligned :
    (cbcdecAt 64 { State.reset with inlen := 17, keylen := 32, outlen := 5 }).outlen = 0 ∧
    (cbcdecAt 64 { State.reset with inlen := 17, keylen := 32 }).schedValid = false := by decide
/-- The chaining block is the previous ciphertext block (R113). -/
theorem test_cbc_decrypt_chains (c d : Block) :
    (cbcDecrypt scheduleK1 zeroBlock none [c, d]).1 =
      [xorBlock (decryptBlock c scheduleK1) zeroBlock, xorBlock (decryptBlock d scheduleK1) c] := rfl

/-! ### The bus (95 section 2) -/

/-- T-BUS-7: address bits [1:0] are ignored, and a KEY write clears SCHED_VALID. -/
theorem test_key_write :
    after (step { State.reset with schedValid := true, host := [.write 0x00103 0x11223344] })
      (fun t => (t.schedValid, t.key[0], t.key[3], t.key[4])) = some (false, 0x44, 0x11, 0x00) := by decide
/-- T-BUS-5. -/
theorem test_opnd_high_half :
    after (step { State.reset with host := [.write 0x00014 0xFFFFFFFF] }) opndWord = some 0x0000FFFF := by decide
/-- T-BUS-10. -/
theorem test_status_read :
    after (step { State.reset with schedValid := true, errcode := 3, overrun := true, host := [.read 0x00004] })
      (·.rdata) = some (some 0x00000036) := by decide
/-- T-BUS-8: a word beyond the capacity. -/
theorem test_inbuf_beyond_capacity :
    (idleWrite 64 0x12345678 State.reset (target 0x10040)).inbuf = [] ∧
    idleReadWord 64 State.reset (target 0x10040) = 0 := by decide
/-- R43's example: word 8 of a schedule, bytes 9b a3 54 11, reads as 0x1154A39B. -/
theorem test_window_word : packWord 0x9b 0xa3 0x54 0x11 = 0x1154A39B := by decide
theorem test_ldin_words :
    HostLine.accesses (.ldin [1, 2, 3, 4, 5]) =
      [.write 0x10000 0x04030201, .write 0x10004 0x00000005, .write 0x0000C 5] := by decide

/-! ### The step -/

theorem test_fetch_word_runs :
    after (step (State.withFetchWord { State.reset with overrun := true } 32 0x00000001))
      (fun t => (t.overrun, t.pending)) = some (false, none) := by decide
theorem test_illegal_word_completes :
    after (step (State.reset.withFetchWord 32 0x00000131)) statusWord = some 0x00000010 := by decide

/-! ### Witnesses: for each statement with hypotheses, a state and operands that meet them, clause by clause -/

/-- The reset state with host accesses to come: BUSY = 0. -/
def idleHost (es : List HostEvent) : State := { State.reset with host := es }

/-- The same with a NOP pending, `n` turns of the host before its completion. -/
def busyHost (n : Nat) (es : List HostEvent) : State := { idleHost es with pending := some 0, delay := n }

theorem idleHost_idle (es : List HostEvent) : Idle (idleHost es) := ⟨rfl, rfl⟩
theorem busyHost_before (n : Nat) (es : List HostEvent) : BusyBefore n (busyHost (n + 1) es) := ⟨rfl, rfl, rfl⟩
theorem busyHost_due (es : List HostEvent) : Due 0 (busyHost 0 es) := ⟨rfl, rfl, rfl⟩

/-- The reset state with a valid key length and INLEN set. -/
def withLength (n : Nat) : State := { State.reset with keylen := 32, inlen := BitVec.ofNat 32 n }

theorem withLength_inlen {n : Nat} (h : n < 2 ^ 32) : (withLength n).inlen.toNat = n := by
  simp [withLength]; omega

/-- The address of the word at offset BUF_BYTES - 4 of INBUF: the last word of the buffer. -/
theorem last_inbuf_word :
    (BitVec.ofNat 18 (0x10000 + (Config.bufBytes - 4)) &&& 0x3FFFC).toNat = 0x10000 + (Config.bufBytes - 4) := by
  have h : ∀ b c : Fin 64, (BitVec.ofNat 18 (0x10000 + (16 * (64 * b.val + c.val + 1) - 4)) &&& 0x3FFFC).toNat
      = 0x10000 + (16 * (64 * b.val + c.val + 1) - 4) := by decide +kernel
  have hb := Config.bufBlocks.isLt
  have e : 64 * (Config.bufBlocks.val / 64) + Config.bufBlocks.val % 64 = Config.bufBlocks.val := by omega
  have := h ⟨Config.bufBlocks.val / 64, by omega⟩ ⟨Config.bufBlocks.val % 64, by omega⟩
  simp only [e] at this
  exact this

theorem witness_DecodeInvertsEncode : decode 0x00000E33 = .command (.addrk 14) ∧ (Instr.addrk 14).WellFormed := by decide

theorem witness_IllegalWordSetsErrcodeOnly :
    Due 0x00000F33 (State.reset.withFetchWord 32 0xF33) ∧ decode 0x00000F33 = .illegal .roundIndex :=
  ⟨⟨rfl, rfl, rfl⟩, by decide⟩

theorem witness_StepRunsTheDecodedCommand : Due 0 (busyHost 0 [.resetOn]) ∧ decode 0 = .command .nop :=
  ⟨busyHost_due _, by decide⟩

theorem witness_PendingCommandEnds : (busyHost 3 [.wait]).resetLine = false ∧ (busyHost 3 [.wait]).pending = some 0 :=
  ⟨rfl, rfl⟩

/-- A busy step that sets OVERRUN, and one from a state that has it set. -/
theorem witness_PendingInputsAreFrozen :
    (∃ t, step { busyHost 1 [.wait] with overrun := true } = .next t ∧ t.busy = true ∧ t.overrun = true) ∧
    (busyHost 1 [.write 0x00100 7]).busy = true ∧
    ∃ t, step (busyHost 1 [.write 0x00100 7]) = .next t ∧ t.busy = true :=
  ⟨⟨_, rfl, rfl, rfl⟩, rfl, _, step_busy_write (busyHost_before 0 _) rfl, rfl⟩

theorem reset_inv : Inv State.reset where
  schedule := fun h => by cases h
  errcode := by decide
  outlen := by simp [State.reset]
  output := by simp [State.reset]
  inbufForm := ⟨rfl, rfl⟩
  outbufForm := ⟨rfl, rfl⟩
  reset := fun h => by cases h

theorem witness_StepKeepsInvariant : Inv State.reset ∧ ∃ t, step State.reset = .next t := ⟨reset_inv, _, rfl⟩

theorem witness_WaitingHostNeverOverruns :
    Inv (idleHost [.write 0x00000 0x20, .wait]) ∧ HostWaits (idleHost [.write 0x00000 0x20, .wait]) ∧
    (idleHost [.write 0x00000 0x20, .wait]).overrun = false ∧
    ∃ t, step (idleHost [.write 0x00000 0x20, .wait]) = .next t :=
  ⟨{ reset_inv with reset := fun h => by cases h }, ⟨fun h => by simp [idleHost, State.reset, State.busy] at h, by decide⟩,
    rfl, _, step_idle_write (idleHost_idle _) rfl⟩

/-- SCHED_VALID falls by a write to the first KEY word and to the last, and by reset. -/
theorem witness_SchedValidHasFewWriters_falls :
    (∃ t, step { idleHost [.write 0x00100 0] with schedValid := true } = .next t ∧ t.schedValid = false) ∧
    (∃ t, step { idleHost [.write 0x0011F 0] with schedValid := true } = .next t ∧ t.schedValid = false) ∧
    (∃ t, step { idleHost [.resetOn] with schedValid := true } = .next t ∧ t.schedValid = false) :=
  ⟨⟨_, step_idle_write ⟨rfl, rfl⟩ rfl, rfl⟩, ⟨_, step_idle_write ⟨rfl, rfl⟩ rfl, rfl⟩, ⟨_, rfl, rfl⟩⟩

/-- SCHED_VALID rises by KEYEXP, CBCENC and CBCDEC. -/
theorem witness_SchedValidHasFewWriters_rises :
    (∃ t, step (State.reset.withFetchWord 32 0x20) = .next t ∧ t.schedValid = true) ∧
    (∃ t, step ((withLength 0).withFetchWord 32 0x50) = .next t ∧ t.schedValid = true) ∧
    (∃ t, step ((withLength 0).withFetchWord 32 0x51) = .next t ∧ t.schedValid = true) := by
  have h := bufBytes_bounds
  have e : ((withLength 0).withFetchWord 32 0x50).inlen.toNat = 0 := withLength_inlen (n := 0) (by omega)
  have e' : ((withLength 0).withFetchWord 32 0x51).inlen.toNat = 0 := withLength_inlen (n := 0) (by omega)
  have h1 : step ((withLength 0).withFetchWord 32 0x50) = thenIdle (exec .cbcenc ((withLength 0).withFetchWord 32 0x50)) := rfl
  have h2 : step ((withLength 0).withFetchWord 32 0x51) = thenIdle (exec .cbcdec ((withLength 0).withFetchWord 32 0x51)) := rfl
  refine ⟨⟨_, rfl, rfl⟩, ⟨_, by rw [h1, exec_cbcenc_valid rfl (by omega)]; rfl, ?_⟩,
    ⟨_, by rw [h2, exec_cbcdec_valid rfl (by omega) (by omega)]; rfl, ?_⟩⟩
  · rw [goIdle_schedValid, cbcEncryptInput_eq]
  · rw [goIdle_schedValid, cbcDecryptInput_eq]

theorem witness_OverrunSetAndCleared :
    BusyBefore 0 (busyHost 1 [.write 0x3FFFF 0]) ∧
    (∃ t, step (busyHost 1 [.write 0x3FFFF 0]) = .next t ∧ t.overrun = true) ∧
    (∃ t, step { idleHost [.resetOn] with overrun := true } = .next t ∧ t.overrun = false) ∧
    (∃ t, step { idleHost [] with overrun := true, pending := some 1 } = .next t ∧ t.overrun = false) :=
  ⟨busyHost_before 0 _, ⟨_, step_busy_write (busyHost_before 0 _) rfl, rfl⟩, ⟨_, rfl, rfl⟩, ⟨_, rfl, rfl⟩⟩

theorem witness_BusyWriteSetsOverrunOnly : BusyBefore 2 (busyHost 3 [.write 0x00000 0x20]) ∧
    (busyHost 3 [.write 0x00000 0x20]).host = [.write 0x00000 0x20] := ⟨busyHost_before 2 _, rfl⟩

theorem witness_BusyReadGivesStatusOrAnyValue :
    BusyBefore 0 (busyHost 1 [.read 0x00007]) ∧ (0x00007 : Addr) &&& 0x3FFFC = 0x00004 ∧
    BusyBefore 0 (busyHost 1 [.read 0x00008]) ∧ ¬ (0x00008 : Addr) &&& 0x3FFFC = 0x00004 :=
  ⟨busyHost_before 0 _, by decide, busyHost_before 0 _, by decide⟩

theorem witness_RacingWriteIsLateOrDropped :
    Idle (idleHost [.write 0x00000 0x20, .write 0x00100 1]) ∧
    (idleHost [.write 0x00000 0x20, .write 0x00100 1]).host = [.write 0x00000 0x20, .write 0x00100 1] :=
  ⟨idleHost_idle _, rfl⟩

theorem witness_CommandWriteIsAccepted :
    Idle (idleHost [.write 0x00003 9]) ∧ BusyBefore 0 (busyHost 1 [.write 0x00003 9]) ∧ (0x00003 : Addr) &&& 0x3FFFC = 0 :=
  ⟨idleHost_idle _, busyHost_before 0 _, by decide⟩

theorem witness_RegisterWritesTakeEffect :
    Idle (idleHost [.write 0x0000B 1]) ∧ (0x0000B : Addr) &&& 0x3FFFC = 0x00008 ∧
    (0x0000F : Addr) &&& 0x3FFFC = 0x0000C ∧ (0x00017 : Addr) &&& 0x3FFFC = 0x00014 :=
  ⟨idleHost_idle _, by decide⟩

theorem witness_KeyWriteClearsSchedValid :
    Idle (idleHost [.write 0x0011F 1]) ∧ ((0x00100 : Addr) &&& 0x3FFFC).toNat = 0x00100 + 0 ∧
    ((0x0011F : Addr) &&& 0x3FFFC).toNat = 0x00100 + 28 := ⟨idleHost_idle _, by decide⟩

theorem witness_StateWriteReplacesOneWord :
    Idle (idleHost [.write 0x0012F 1]) ∧ ((0x00120 : Addr) &&& 0x3FFFC).toNat = 0x00120 + 0 ∧
    ((0x0012F : Addr) &&& 0x3FFFC).toNat = 0x00120 + 12 := ⟨idleHost_idle _, by decide⟩

theorem witness_InbufWriteStoresOneWord :
    Idle (idleHost [.write (BitVec.ofNat 18 (0x10000 + (Config.bufBytes - 4))) 1]) ∧
    (BitVec.ofNat 18 (0x10000 + (Config.bufBytes - 4)) &&& 0x3FFFC).toNat = 0x10000 + (Config.bufBytes - 4) ∧
    Config.bufBytes - 4 < 0x10000 ∧ Config.bufBytes - 4 + 4 ≤ Config.bufBytes := by
  have h := bufBytes_bounds
  exact ⟨idleHost_idle _, last_inbuf_word, by omega, by omega⟩

/-- The window has words beyond the buffer in every implementation but the largest. -/
theorem witness_InbufWriteStoresOneWord_beyond (h : Config.bufBytes < 0x10000) :
    Idle (idleHost [.write 0x1FFFF 1]) ∧ ((0x1FFFF : Addr) &&& 0x3FFFC).toNat = 0x10000 + 0xFFFC ∧
    Config.bufBytes < 0xFFFC + 4 := ⟨idleHost_idle _, by decide, by omega⟩

theorem witness_ReadOnlyWritesAreIgnored :
    Idle (idleHost [.write 0x00004 1]) ∧ ((0x00004 : Addr) &&& 0x3FFFC).toNat = 0x00004 ∧
    ((0x00010 : Addr) &&& 0x3FFFC).toNat = 0x00010 ∧ ((0x00018 : Addr) &&& 0x3FFFC).toNat = 0x00018 ∧
    ((0x000FF : Addr) &&& 0x3FFFC).toNat = 0x000FC ∧ ((0x00130 : Addr) &&& 0x3FFFC).toNat = 0x00130 ∧
    ((0x0FFFF : Addr) &&& 0x3FFFC).toNat = 0x0FFFC ∧ ((0x20000 : Addr) &&& 0x3FFFC).toNat = 0x20000 ∧
    ((0x3FFFF : Addr) &&& 0x3FFFC).toNat = 0x3FFFC := ⟨idleHost_idle _, by decide⟩

theorem witness_RegisterReadsGiveContents :
    Idle (idleHost [.read 0x00018]) ∧ ([0x00000, 0x00004, 0x00008, 0x0000C, 0x00010, 0x00014, 0x00018, 0x0001C, 0x000FC,
      0x00140, 0x001FC, 0x002F0, 0x0FFFC, 0x30000, 0x3FFFC] : List Addr).all (fun a => a &&& 0x3FFFC == a) = true :=
  ⟨idleHost_idle _, by decide⟩

theorem witness_WindowReadsAreLittleEndian :
    Idle (idleHost [.read 0x00100]) ∧ ((0x0011F : Addr) &&& 0x3FFFC).toNat + 3 = 0x00100 + 31 ∧
    ((0x0012F : Addr) &&& 0x3FFFC).toNat + 3 = 0x00120 + 15 ∧ ((0x0013F : Addr) &&& 0x3FFFC).toNat + 3 = 0x00130 + 15 ∧
    ((0x002EF : Addr) &&& 0x3FFFC).toNat + 3 = 0x00200 + 239 ∧ ((0x00200 : Addr) &&& 0x3FFFC).toNat + 0 = 0x00200 + 0 :=
  ⟨idleHost_idle _, by decide⟩

theorem witness_BufferReadsGiveSpecifiedBytes :
    Idle (idleHost [.read 0x10000]) ∧ ((0x10000 : Addr) &&& 0x3FFFC).toNat = 0x10000 + 0 ∧
    ((0x20000 : Addr) &&& 0x3FFFC).toNat = 0x20000 + 0 ∧ 0 + 4 ≤ Config.bufBytes ∧
    Memory.byte? [(3, 7)] (0 + 3) = some 7 ∧
    0 + 3 < ({ State.reset with outlen := 4, outbuf := [(3, 7)] } : State).outlen.toNat := by
  have h := bufBytes_bounds
  exact ⟨idleHost_idle _, by decide, by decide, by omega, by decide, by decide⟩

theorem witness_BufferReadsGiveSpecifiedBytes_beyond (h : Config.bufBytes < 0x10000) :
    ((0x1FFFF : Addr) &&& 0x3FFFC).toNat = 0x10000 + 0xFFFC ∧ ((0x2FFFF : Addr) &&& 0x3FFFC).toNat = 0x20000 + 0xFFFC ∧
    Config.bufBytes < 0xFFFC + 4 := ⟨by decide, by decide, by omega⟩

theorem witness_WrittenWordReadsBack :
    Idle (idleHost [.write 0x0012C 5, .read 0x0012C]) ∧ ((0x00008 : Addr) &&& 0x3FFFC).toNat = 0x00008 ∧
    ((0x0000C : Addr) &&& 0x3FFFC).toNat = 0x0000C ∧ ((0x00100 : Addr) &&& 0x3FFFC).toNat = 0x00100 ∧
    ((0x0012F : Addr) &&& 0x3FFFC).toNat = 0x0012C ∧
    (BitVec.ofNat 18 (0x10000 + (Config.bufBytes - 4)) &&& 0x3FFFC).toNat + 4 = 0x10000 + Config.bufBytes := by
  have h := bufBytes_bounds
  have l := last_inbuf_word
  exact ⟨idleHost_idle _, by decide, by decide, by decide, by decide, by omega⟩

theorem witness_LowAddressBitsAreIgnored :
    ({ State.reset with resetLine := true } : State).resetLine = true ∧ State.reset.pending = none ∧
    (busyHost 1 []).delay ≠ 0 := ⟨rfl, rfl, by decide⟩

theorem witness_WaitPollsUntilIdle :
    BusyBefore 0 (busyHost 1 [.wait]) ∧ Idle (idleHost [.wait]) ∧ (idleHost [.wait]).host = .wait :: [] :=
  ⟨busyHost_before 0 _, idleHost_idle _, rfl⟩

theorem witness_ResetInputHoldsTheResetState :
    ((idleHost [.resetOn]).resetLine = false ∧ (idleHost [.resetOn]).pending = none) ∧
    ((busyHost 1 [.resetOn]).resetLine = false ∧ (busyHost 1 [.resetOn]).delay ≠ 0) ∧
    ([[.write 0x00100 7], [.read 0x00004], [.wait], [.resetOn], [], [.resetOff]] : List (List HostEvent)).all
      (fun es => ({ idleHost es with resetLine := true } : State).resetLine) = true :=
  ⟨⟨rfl, rfl⟩, ⟨rfl, by decide⟩, rfl⟩

theorem witness_CommandsLeaveInputsAlone : ∃ t, exec (.addrk 15) State.reset = .next t ∧ t.errcode = 1 := ⟨_, rfl, rfl⟩

theorem witness_OutputsHaveTheirOwnWriters :
    (∃ t, exec .gfmul (withOperands 0x57 0x83) = .next t ∧ t.state = zeroBlock) ∧
    (∃ t, exec .subbytes State.reset = .next t ∧ t.result = 0) ∧ (∃ t, exec .clrstat State.reset = .next t) :=
  ⟨⟨_, rfl, rfl⟩, ⟨_, rfl, rfl⟩, ⟨_, rfl⟩⟩

theorem witness_GmulLaws : (0x53 : Byte) ≠ 0 ∧ gmul 0x53 0xCA = 0x01 := by decide

theorem witness_SboxIsTheAffineOfTheInverse : gmul 0x02 0x8D = 0x01 := by decide

/-- Each branch, and the round constants at the first and the last index read. -/
theorem witness_ExpandObeysTheRecurrence : (8 ≤ 8 ∧ 8 < 60 ∧ 8 % 8 = 0) ∧ (56 < 60 ∧ 56 % 8 = 0 ∧ 56 / 8 = 7) ∧
    (8 ≤ 12 ∧ 12 % 8 = 4) ∧ (8 ≤ 59 ∧ 59 < 60) := by
  decide

theorem witness_AddrkAddsTheRoundKey : (14 : BitVec 4).toNat ≤ 14 ∧ (keyed zeroBlock).schedValid = true := ⟨by decide, rfl⟩

theorem witness_NoScheduleRaisesENosched :
    State.reset.schedValid = false ∧ (14 : BitVec 4).toNat ≤ 14 ∧ Idle (idleHost [.write 0x0011F 0]) ∧
    0x100 ≤ ((0x00100 : Addr) &&& 0x3FFFC).toNat ∧ ((0x0011F : Addr) &&& 0x3FFFC).toNat ≤ 0x11C ∧
    ∃ t, step (idleHost [.write 0x0011F 0]) = .next t :=
  ⟨rfl, by decide, idleHost_idle _, by decide, by decide, _, step_idle_write (idleHost_idle _) rfl⟩

theorem witness_BlockCommandsTransformState : (keyed zeroBlock).schedValid = true := rfl

theorem witness_BlockCommandsEqualTheirRounds : (keyed zeroBlock).schedValid = true := rfl

theorem witness_UnpadRemovesValidPaddingOnly :
    (1 ≤ 1 ∧ 1 ≤ 16 ∧ 1 ≤ 16 ∧ 16 ≤ 16) ∧
    ¬ ∃ (E : List Byte) (p : Nat), 1 ≤ p ∧ p ≤ 16 ∧ [] = E ++ List.replicate p (BitVec.ofNat 8 p) := by
  refine ⟨by decide, fun ⟨E, p, h1, _, h⟩ => ?_⟩
  have := congrArg List.length h
  simp at this
  omega

theorem witness_PadAndUnpadFillOutbuf :
    (withLength (Config.bufBytes - 1)).inlen.toNat < Config.bufBytes ∧
    (withLength Config.bufBytes).inlen.toNat ≤ Config.bufBytes := by
  have h := bufBytes_bounds
  rw [withLength_inlen (by omega), withLength_inlen (by omega)]
  omega

theorem witness_InputIsTheBufferContents :
    0 < (withInput [7]).inlen.toNat ∧ (withInput [7]).inbuf.byte? 0 = some 7 := by decide

theorem witness_CapacityIsCheckedFirst :
    Config.bufBytes ≤ (withLength Config.bufBytes).inlen.toNat ∧
    Config.bufBytes < (withLength (Config.bufBytes + 1)).inlen.toNat ∧
    (withLength (Config.bufBytes - 1)).inlen.toNat < Config.bufBytes ∧
    (withLength Config.bufBytes).inlen.toNat ≤ Config.bufBytes := by
  have h := bufBytes_bounds
  rw [withLength_inlen (by omega), withLength_inlen (by omega), withLength_inlen (by omega)]
  omega

theorem witness_InvalidInputsGiveEmptyResult :
    (State.reset.inlen.toNat < Config.bufBytes ∧ State.reset.keylen ≠ 32) ∧
    ((withLength 1).inlen.toNat ≤ Config.bufBytes ∧ (withLength 1).keylen = 32 ∧ (withLength 1).inlen.toNat % 16 ≠ 0) := by
  have h := bufBytes_bounds
  rw [withLength_inlen (by omega)]
  exact ⟨⟨by simp [State.reset]; omega, by decide⟩, by omega, rfl, by omega⟩

theorem witness_CbcencChainsCiphertext :
    (withLength (Config.bufBytes - 1)).keylen = 32 ∧ (withLength (Config.bufBytes - 1)).inlen.toNat < Config.bufBytes := by
  have h := bufBytes_bounds
  rw [withLength_inlen (by omega)]
  exact ⟨rfl, by omega⟩

theorem witness_CbcdecUnchainsPlaintext :
    ((withLength 0).keylen = 32 ∧ (withLength 0).inlen.toNat ≤ Config.bufBytes ∧ (withLength 0).inlen.toNat % 16 = 0) ∧
    (withLength Config.bufBytes).keylen = 32 ∧ (withLength Config.bufBytes).inlen.toNat ≤ Config.bufBytes ∧
    (withLength Config.bufBytes).inlen.toNat % 16 = 0 := by
  have h := bufBytes_bounds
  rw [withLength_inlen (by omega), withLength_inlen (by omega)]
  exact ⟨⟨rfl, by omega, by omega⟩, rfl, by omega, by omega⟩

/-- A one-byte plaintext, its encryption, and a state that holds the ciphertext as its input. -/
theorem witness_CbcRoundTrip :
    ∃ s t u : State, s.keylen = 32 ∧ s.inlen.toNat = 1 ∧ s.inlen.toNat < Config.bufBytes ∧
      (∀ k, k < s.inlen.toNat → (s.inbuf.byte? k).isSome = true) ∧ exec .cbcenc s = .next t ∧
      u.key = s.key ∧ u.keylen = 32 ∧ u.inlen = t.outlen ∧
      (∀ k, k < t.outlen.toNat → u.inbuf.byte? k = t.outbuf.byte? k) := by
  have h := bufBytes_bounds
  let s : State := { withLength 1 with inbuf := [(0, 7)] }
  have e : s.inlen.toNat = 1 := by decide
  refine ⟨s, _, { s with inlen := (cbcEncryptInput s).outlen, inbuf := (cbcEncryptInput s).outbuf }, rfl, e, by omega,
    fun k hk => ?_, exec_cbcenc_valid rfl (by omega), rfl, rfl, rfl, fun _ _ => rfl⟩
  have hk : k = 0 := by omega
  subst hk
  rfl

/-- Two states that differ in all that may differ: STATE, and a byte of INBUF beyond INLEN. -/
theorem witness_BufferCommandsAreDeterministic :
    ∃ s s' : State, s ≠ s' ∧ s.key = s'.key ∧ s.keylen = s'.keylen ∧ s.inlen = s'.inlen ∧
      (∀ k, k < s.inlen.toNat → (s.inbuf.byte? k).isSome = true ∧ s.inbuf.byte? k = s'.inbuf.byte? k) ∧
      (∃ t, exec .pad s = .next t) ∧ ∃ t', exec .pad s' = .next t' := by
  refine ⟨{ withLength 1 with inbuf := [(0, 7)] }, { withLength 1 with inbuf := [(0, 7), (1, 9)], result := 3 },
    fun e => absurd (congrArg (fun s => s.result) e) (by decide), rfl, rfl, rfl, fun k hk => ?_, ⟨_, rfl⟩, _, rfl⟩
  have hk : k < 1 := hk
  have hk : k = 0 := by omega
  subst hk
  exact ⟨rfl, rfl⟩

end Sys2Proof.Tests
end

section
/-! SUPPORT. What the decoder says of the fields of a command word (30_encoding.md R57, R61, R62). -/

namespace Sys2Proof

/-- A row of R61 that is not ADDRK's has the opcode it is listed under, and RIDX 0. -/
theorem plainCommand_fields {op : Byte} {i : Instr} (h : plainCommand op = some i) :
    op = opcodeOf i ∧ ridxOf i = 0 := by
  unfold plainCommand at h
  split at h
  case h_20 => cases h
  all_goals next hop =>
    obtain rfl := Option.some.inj h
    exact ⟨BitVec.eq_of_toNat_eq hop, rfl⟩

/-- A word that decodes to a command has RSV = 0 and the command's OPCODE and RIDX. -/
theorem decode_command_fields {w : Word} {i : Instr} (h : decode w = .command i) :
    rsvField w = 0 ∧ opcodeField w = opcodeOf i ∧ ridxField w = ridxOf i := by
  unfold decode at h
  split_ifs at h with hrsv hop hr hridx
  · cases h
    exact ⟨not_not.1 hrsv, hop, rfl⟩
  · split at h
    · next j hj =>
      cases h
      obtain ⟨hop, hr⟩ := plainCommand_fields hj
      exact ⟨not_not.1 hrsv, hop, (not_not.1 hridx).trans hr.symm⟩
    · cases h

/-- A word is its three fields put together (R57). -/
theorem word_eq_fields (w : Word) :
    w = (opcodeField w).setWidth 32 ||| (ridxField w).setWidth 32 <<< 8 ||| (rsvField w).setWidth 32 <<< 12 := by
  ext k hk
  simp only [opcodeField, ridxField, rsvField, BitVec.getElem_or, BitVec.getElem_shiftLeft, BitVec.getElem_setWidth,
    BitVec.getLsbD_extractLsb']
  grind

/-- A word that decodes to a command is that command's encoding (R57, R61, R62). -/
theorem encode_of_decode {w : Word} {i : Instr} (h : decode w = .command i) : encode i = w := by
  obtain ⟨hrsv, hop, hr⟩ := decode_command_fields h
  rw [word_eq_fields w, hrsv, hop, hr]
  simp [encode]

end Sys2Proof
end

section
/-! SUPPORT. What each part of the machine does to OVERRUN (10_state.md R29), and from it O13 and O29. -/

namespace Sys2Proof.Machine

/-! ### A command -/

@[simp] theorem transformState_overrun (f : Block → Block) (s : State) :
    (transformState f s).overrun = s.overrun := rfl

@[simp] theorem cbcencAt_overrun (cap : Nat) (s : State) : (cbcencAt cap s).overrun = s.overrun := by
  unfold cbcencAt
  split_ifs
  · rfl
  · rfl
  · rw [cbcEncryptInput_eq]

@[simp] theorem cbcdecAt_overrun (cap : Nat) (s : State) : (cbcdecAt cap s).overrun = s.overrun := by
  unfold cbcdecAt
  split_ifs
  · rfl
  · rfl
  · rw [cbcDecryptInput_eq]

@[simp] theorem padAt_overrun (cap : Nat) (s : State) : (padAt cap s).overrun = s.overrun := by
  unfold padAt
  split_ifs <;> rfl

@[simp] theorem unpadAt_overrun (cap : Nat) (s : State) : (unpadAt cap s).overrun = s.overrun := by
  unfold unpadAt
  split_ifs <;> rfl

/-- CLRSTAT is the only command that writes OVERRUN (R29, R121). -/
theorem exec_overrun {i : Instr} {s t : State} (hi : i ≠ .clrstat) (h : exec i s = .next t) :
    t.overrun = s.overrun := by
  cases i <;> simp only [exec] at h
  case clrstat => exact absurd rfl hi
  case addrk r => unfold execAddrk at h; split_ifs at h <;> cases h <;> simp
  case encblock => unfold execEncblock at h; split_ifs at h <;> cases h <;> simp
  case decblock => unfold execDecblock at h; split_ifs at h <;> cases h <;> simp
  all_goals obtain rfl := Host.Outcome.next.inj h; simp

/-- A completion leaves OVERRUN as it was, unless the word is CLRSTAT's, and then OVERRUN is 0 (R29, R65). -/
theorem complete_overrun {w : Word} {s t : State} (h : complete w s = .next t) :
    t.overrun = s.overrun ∨ (w = 0x00000001 ∧ t.overrun = false) := by
  obtain ⟨u, rfl, ⟨i, hi, hu⟩ | ⟨why, -, rfl⟩⟩ := complete_cases h
  · by_cases hc : i = .clrstat
    · subst hc
      cases hu
      exact .inr ⟨(encode_of_decode hi).symm, rfl⟩
    · exact .inl ((goIdle_overrun u).trans (exec_overrun hc hu))
  · exact .inl rfl

/-- After a completion no command is pending (R65). -/
theorem complete_pending {w : Word} {s t : State} (h : complete w s = .next t) : t.pending = none := by
  obtain ⟨u, rfl, -⟩ := complete_cases h
  rfl

/-! ### The host's turn -/

@[simp] theorem hostAccessInReset_overrun (s : State) : (hostAccessInReset s).overrun = s.overrun := by
  unfold hostAccessInReset
  split <;> rfl

@[simp] theorem idleWrite_overrun (cap : Nat) (d : Word) (s : State) (tgt : Target) :
    (idleWrite cap d s tgt).overrun = s.overrun := by
  rw [idleWrite_frame]

/-- A bus write sets OVERRUN exactly when it finds BUSY = 1 (R29, R49). -/
@[simp] theorem busWrite_overrun (cap : Nat) (a : Addr) (d : Word) (s : State) :
    (busWrite cap a d s).overrun = (s.busy || s.overrun) := by
  unfold busWrite
  cases hb : s.busy <;> simp

/-- The host's turn leaves OVERRUN as it was, unless its access is a bus write with BUSY = 1, which sets OVERRUN, or
asserts reset, which clears it (R29, R139). -/
theorem hostAccess_overrun (cap : Nat) (s : State) :
    (hostAccess cap s).overrun = s.overrun ∨
    (s.busy = true ∧ (hostAccess cap s).overrun = true ∧ ∃ a d rest, s.host = .write a d :: rest) ∨
    ((hostAccess cap s).resetLine = true ∧ (hostAccess cap s).overrun = false ∧
      ∃ rest, s.host = .resetOn :: rest) := by
  unfold hostAccess
  split
  · exact .inl rfl
  · next a d rest hh =>
    have ho : (busWrite cap a d { s with host := rest }).overrun = (s.busy || s.overrun) := busWrite_overrun ..
    cases hb : s.busy <;> rw [hb] at ho
    · exact .inl ho
    · exact .inr (.inl ⟨rfl, ho, a, d, rest, hh⟩)
  · exact .inl rfl
  · split_ifs <;> exact .inl rfl
  · next rest hh => exact .inr (.inr ⟨rfl, rfl, rest, hh⟩)
  · exact .inl rfl

/-! ### The step -/

/-- All that a step can do to OVERRUN (R29). -/
theorem step_overrun {s t : State} (h : step s = .next t) :
    t.overrun = s.overrun ∨
    (t.overrun = true ∧ ∃ n, BusyBefore n s ∧ ∃ a d rest, s.host = .write a d :: rest) ∨
    (t.overrun = false ∧ s.resetLine = false ∧ t.resetLine = true ∧ ∃ rest, s.host = .resetOn :: rest) ∨
    (t.overrun = false ∧ Due 0x00000001 s ∧ t.pending = none) := by
  obtain ⟨-, hs⟩ | ⟨hidle, hs⟩ | ⟨w, hdue, hs⟩ | ⟨n, hbusy, hs⟩ := step_cases s <;> rw [hs] at h
  · cases h
    exact .inl (hostAccessInReset_overrun s)
  · cases h
    obtain ho | ⟨hb, -⟩ | ⟨hr, ho, hw⟩ := hostAccess_overrun Config.bufBytes s
    · exact .inl ho
    · exact absurd (hidle.busy_eq.symm.trans hb) Bool.false_ne_true
    · exact .inr (.inr (.inl ⟨ho, hidle.released, hr, hw⟩))
  · obtain ho | ⟨rfl, ho⟩ := complete_overrun h
    · exact .inl ho
    · exact .inr (.inr (.inr ⟨ho, hdue, complete_pending h⟩))
  · cases h
    obtain ho | ⟨-, ho, hw⟩ | ⟨hr, ho, hw⟩ := hostAccess_overrun Config.bufBytes { s with delay := n }
    · exact .inl ho
    · exact .inr (.inl ⟨ho, n, hbusy, hw⟩)
    · exact .inr (.inr (.inl ⟨ho, hbusy.released, hr, hw⟩))

/-- Settles O13: the busy write is the law of Laws/HostAccess, and each change of OVERRUN singles out one case of
`step_overrun`. -/
theorem overrunSetAndCleared : Obligations.OverrunSetAndCleared := by
  refine ⟨fun s n a d rest hb hh => step_busy_write hb hh, fun s t h => ⟨fun h0 h1 => ?_, fun h1 h0 => ?_⟩⟩
  · obtain ho | ⟨-, hw⟩ | ⟨ho, -⟩ | ⟨ho, -⟩ := step_overrun h
    · simp [h0, h1] at ho
    · exact hw
    · simp [h1] at ho
    · simp [h1] at ho
  · obtain ho | ⟨ho, -⟩ | ⟨-, hreset⟩ | ⟨-, hclr⟩ := step_overrun h
    · simp [h0, h1] at ho
    · simp [h0] at ho
    · exact .inl hreset
    · exact .inr hclr

/-- Settles O29: the windows are constant vectors, the registers stand in the definition, and both RAMs list no byte. -/
theorem resetValuesAreTheTable : Obligations.ResetValuesAreTheTable := by
  refine ⟨fun i => ?key, rfl, fun i => ?state, fun i => ?chain, fun i => ?rk, rfl, rfl, rfl, rfl, rfl, rfl, rfl, rfl,
    rfl, rfl, fun k => ⟨Memory.byte?_nil k, Memory.byte?_nil k⟩⟩
  case key => exact Vector.getElem_replicate i.isLt
  case state => exact getElem_zeroBlock i i.isLt
  case chain => exact getElem_zeroBlock i i.isLt
  case rk => exact Vector.getElem_replicate i.isLt

end Sys2Proof.Machine
end

section
/-! SUPPORT. Bus accesses while BUSY = 1 (20_memory.md R49, R50), and from them O14 and O15. -/

namespace Sys2Proof.Machine

/-- The step on a bus read with BUSY = 1 (R50): the word is read as in `s`, for STATUS and the number of the draw do not
depend on the two fields of the model's own that the host's turn has moved. -/
theorem step_busy_read {n : Nat} {s : State} {a : Addr} {rest : List HostEvent} (h : BusyBefore n s)
    (hh : s.host = .read a :: rest) :
    step s = .next { s with
      rdata := some (if a &&& 0x3FFFC = 0x00004 then statusWord s else Config.freeWord s.draws)
      host := rest, delay := n, draws := s.draws + 4 } := by
  have hbusy : State.busy { s with host := rest, delay := n } = true := h.pending
  have hstatus : statusWord { s with host := rest, delay := n } = statusWord s := statusWord_of rfl rfl rfl rfl
  rw [step_busyBefore h]
  simp only [hostAccess, hh, busRead, readWord_busy hbusy, hstatus]

/-- Settles O14: the host's turn of a busy step is the bus write, whose one effect is `OVERRUN <- 1`. -/
theorem busyWriteSetsOverrunOnly : Obligations.BusyWriteSetsOverrunOnly :=
  fun _ _ _ _ _ hbusy hhost => step_busy_write hbusy hhost

/-- Settles O15: the host's turn of a busy step is the bus read, and the word it gives is the law of a busy read. -/
theorem busyReadGivesStatusOrAnyValue : Obligations.BusyReadGivesStatusOrAnyValue :=
  fun _ _ _ _ hbusy hhost => step_busy_read hbusy hhost

end Sys2Proof.Machine
end

section
/-! SUPPORT. Bus writes to CMD (30_encoding.md R64), and from them O17. -/

namespace Sys2Proof.Machine

/-- CMD is the word at address 0 of the map (R40). -/
theorem target_of_cmd_address {a : Addr} (ha : a &&& 0x3FFFC = 0) : target a = .cmd := by
  rw [target, wordAddress, ha]
  rfl

/-- The step on a bus write to CMD with BUSY = 0 accepts the word (R64). -/
theorem step_idle_write_cmd {s : State} {a : Addr} {d : Word} {rest : List HostEvent} (h : Idle s)
    (hh : s.host = .write a d :: rest) (ha : a &&& 0x3FFFC = 0) :
    step s = .next (accept d { s with host := rest }) := by
  rw [step_idle_write h hh, target_of_cmd_address ha, idleWrite]

/-- Settles O17: with BUSY = 0 the step is the acceptance of the word, and with BUSY = 1 it is the bus write whose one
effect is `OVERRUN <- 1`, whatever the address. -/
theorem commandWriteIsAccepted : Obligations.CommandWriteIsAccepted := by
  refine fun s a d rest hhost haddr => ⟨fun hidle => ?idle, fun n hbusy => step_busy_write hbusy hhost⟩
  case idle => exact ⟨accept d { s with host := rest }, step_idle_write_cmd hidle hhost haddr, rfl, rfl⟩

end Sys2Proof.Machine
end

section
/-! SUPPORT. The arithmetic of `xtime` and `gmul` (40_gf_multiplier.md R71 to R73), and from it O34 and O36. `gmul` is
linear in each operand and commutes with `xtime` in each, and every byte is built from 0x01 by `xtime` and XOR: the
induction `gf_induction` turns this into the laws that need more than one run of the loop. -/

namespace Sys2Proof.Machine

theorem xor_xor_xor_cancel_right (a b c : Byte) : (a ^^^ c) ^^^ (b ^^^ c) = a ^^^ b := by
  rw [BitVec.xor_comm b c, BitVec.xor_assoc, ← BitVec.xor_assoc c, BitVec.xor_self, BitVec.zero_xor]

/-- Bit 8 of the 9-bit shift of R71 is bit 7 of the input. -/
theorem xtime_eq_shift (a : Byte) : xtime a = if a.getLsbD 7 then (a <<< 1) ^^^ 0x1B else a <<< 1 := by
  have hlow : (a.zeroExtend 9 <<< 1).extractLsb' 0 8 = a <<< 1 := by
    ext i hi
    simp [← BitVec.getLsbD_eq_getElem, hi, show i < 9 by omega, show i - 1 < 9 by omega]
  have hcarry : (a.zeroExtend 9 <<< 1).getLsbD 8 = a.getLsbD 7 := by simp
  simp only [xtime, hlow, hcarry]

theorem xtime_xor (a b : Byte) : xtime (a ^^^ b) = xtime a ^^^ xtime b := by
  simp only [xtime_eq_shift, BitVec.shiftLeft_xor_distrib, BitVec.getLsbD_xor]
  cases a.getLsbD 7 <;> cases b.getLsbD 7
  case true.true => exact (xor_xor_xor_cancel_right (a <<< 1) (b <<< 1) 0x1B).symm
  all_goals simp <;> ac_rfl

/-- Settles O34: the shift is `xtime_eq_shift`, and each corner case is one evaluation. -/
theorem xtimeShiftsAndReduces : Obligations.XtimeShiftsAndReduces :=
  ⟨xtime_eq_shift, rfl, rfl, rfl, rfl⟩

/-! The loop of R72, by induction on the iterations that are left. -/

theorem gmulLoop_xor_left (b : Byte) (n k : Nat) (p q x y : Byte) :
    gmulLoop b n k (p ^^^ q) (x ^^^ y) = gmulLoop b n k p x ^^^ gmulLoop b n k q y := by
  induction n generalizing k p q x y with
  | zero => rfl
  | succ n ih =>
    simp only [gmulLoop, xtime_xor, ← ih]
    congr 1
    cases b.getLsbD k
    case false => rfl
    case true => simp only [if_true]; ac_rfl

theorem gmulLoop_xor_right (b c : Byte) (n k : Nat) (p q x : Byte) :
    gmulLoop (b ^^^ c) n k (p ^^^ q) x = gmulLoop b n k p x ^^^ gmulLoop c n k q x := by
  induction n generalizing k p q x with
  | zero => rfl
  | succ n ih =>
    simp only [gmulLoop, BitVec.getLsbD_xor, ← ih]
    congr 1
    cases b.getLsbD k <;> cases c.getLsbD k
    case true.true => exact (xor_xor_xor_cancel_right p q x).symm
    all_goals simp <;> ac_rfl

theorem gmulLoop_xtime (b : Byte) (n k : Nat) (p x : Byte) :
    gmulLoop b n k (xtime p) (xtime x) = xtime (gmulLoop b n k p x) := by
  induction n generalizing k p x with
  | zero => rfl
  | succ n ih => simp only [gmulLoop, ← ih, ← xtime_xor, apply_ite xtime]

/-- What XOR and `xtime` keep holds of the loop's result when it holds of the accumulator and the first operand. -/
theorem gmulLoop_induction {P : Byte → Prop} (xtime_mem : ∀ a, P a → P (xtime a))
    (xor_mem : ∀ a b, P a → P b → P (a ^^^ b)) (b : Byte) (n k : Nat) {p x : Byte} (hp : P p) (hx : P x) :
    P (gmulLoop b n k p x) := by
  induction n generalizing k p x with
  | zero => exact hp
  | succ n ih =>
    refine ih (k + 1) ?_ (xtime_mem x hx)
    split
    · exact xor_mem p x hp hx
    · exact hp

/-! The product: what the loop gives for R72's start values. -/

theorem gmul_xor_left (a b c : Byte) : gmul (a ^^^ b) c = gmul a c ^^^ gmul b c :=
  gmulLoop_xor_left c 8 0 0 0 a b

theorem gmul_xor_right (a b c : Byte) : gmul a (b ^^^ c) = gmul a b ^^^ gmul a c :=
  gmulLoop_xor_right b c 8 0 0 0 a

theorem gmul_xtime_left (a b : Byte) : gmul (xtime a) b = xtime (gmul a b) :=
  gmulLoop_xtime b 8 0 0 a

@[simp] theorem gmul_zero_right (a : Byte) : gmul a 0 = 0 := rfl

@[simp] theorem gmul_one_right (a : Byte) : gmul a 1 = a := BitVec.zero_xor

/-- The run of the loop on 0x01 puts the second operand together again from its bits: checked for each of the 256. -/
@[simp] theorem gmul_one_left : ∀ b : Byte, gmul 1 b = b := by decide

/-- Every byte is built from 0x01 by `xtime` and XOR, for it is the result of the loop on 0x01. -/
theorem gf_induction {P : Byte → Prop} (one : P 1) (xtime_mem : ∀ a, P a → P (xtime a))
    (xor_mem : ∀ a b, P a → P b → P (a ^^^ b)) (a : Byte) : P a := by
  have zero : P 0 := xor_mem 1 1 one one
  have h : P (gmul 1 a) := gmulLoop_induction xtime_mem xor_mem a 8 0 zero one
  rwa [gmul_one_left] at h

theorem gmul_xtime_right (a b : Byte) : gmul a (xtime b) = xtime (gmul a b) := by
  induction a using gf_induction with
  | one => rw [gmul_one_left, gmul_one_left]
  | xtime_mem a ih => rw [gmul_xtime_left, ih, gmul_xtime_left]
  | xor_mem a c iha ihc => rw [gmul_xor_left, iha, ihc, ← xtime_xor, gmul_xor_left]

theorem gmul_comm (a b : Byte) : gmul a b = gmul b a := by
  induction b using gf_induction with
  | one => rw [gmul_one_right, gmul_one_left]
  | xtime_mem b ih => rw [gmul_xtime_right, ih, gmul_xtime_left]
  | xor_mem b c ihb ihc => rw [gmul_xor_right, ihb, ihc, gmul_xor_left]

theorem gmul_assoc (a b c : Byte) : gmul (gmul a b) c = gmul a (gmul b c) := by
  induction a using gf_induction with
  | one => rw [gmul_one_left, gmul_one_left]
  | xtime_mem a ih => rw [gmul_xtime_left, gmul_xtime_left, ih, gmul_xtime_left]
  | xor_mem a d iha ihd => rw [gmul_xor_left, gmul_xor_left, iha, ihd, gmul_xor_left]

@[simp] theorem gmul_zero_left (a : Byte) : gmul 0 a = 0 := by
  rw [gmul_comm, gmul_zero_right]

theorem gmul_two (a : Byte) : gmul a 2 = xtime a :=
  calc gmul a 2 = gmul a (xtime 1) := rfl
    _ = xtime a := by rw [gmul_xtime_right, gmul_one_right]

theorem gmul_three (a : Byte) : gmul a 3 = xtime a ^^^ a :=
  calc gmul a 3 = gmul a (2 ^^^ 1) := rfl
    _ = xtime a ^^^ a := by rw [gmul_xor_right, gmul_two, gmul_one_right]

/-! Inverses. Squaring keeps XOR and commutes with the product, so that `a ^ 256 = a` for every byte follows from the
case `a = 2`. Then `a ^ 255` is idempotent, and the only idempotents are 0 and 1. -/

def gfSquare (a : Byte) : Byte := gmul a a

theorem gfSquare_xor (a b : Byte) : gfSquare (a ^^^ b) = gfSquare a ^^^ gfSquare b := by
  simp only [gfSquare, gmul_xor_left, gmul_xor_right, gmul_comm b a]
  rw [BitVec.xor_comm (gmul a b), xor_xor_xor_cancel_right]

theorem gfSquare_gmul (a b : Byte) : gfSquare (gmul a b) = gmul (gfSquare a) (gfSquare b) :=
  calc gmul (gmul a b) (gmul a b) = gmul a (gmul (gmul b a) b) := by simp only [gmul_assoc]
    _ = gmul (gmul a a) (gmul b b) := by rw [gmul_comm b a]; simp only [gmul_assoc]

/-- `a ^ 256 = a`: eight squarings keep XOR and the product (`Function.Semiconj₂.iterate`), and 0x01 and 0x02. -/
theorem iterate_gfSquare_eight (a : Byte) : gfSquare^[8] a = a := by
  have hone : gfSquare^[8] 1 = 1 := by decide
  have htwo : gfSquare^[8] 2 = 2 := by decide
  induction a using gf_induction with
  | one => exact hone
  | xtime_mem a ih => rw [← gmul_two, Function.Semiconj₂.iterate gfSquare_gmul 8 a 2, ih, htwo]
  | xor_mem a b iha ihb => rw [Function.Semiconj₂.iterate gfSquare_xor 8 a b, iha, ihb]

/-- The power of `a` whose exponent is `n + 1` ones in binary, `2 ^ (n + 1) - 1`. -/
def gfPowOnes (a : Byte) : Nat → Byte
  | 0 => a
  | n + 1 => gmul a (gfSquare (gfPowOnes a n))

theorem gmul_gfPowOnes (a : Byte) (n : Nat) : gmul a (gfPowOnes a n) = gfSquare^[n + 1] a := by
  induction n with
  | zero => rfl
  | succ n ih =>
    calc gmul a (gmul a (gfSquare (gfPowOnes a n)))
      _ = gfSquare (gmul a (gfPowOnes a n)) := by rw [← gmul_assoc, gfSquare_gmul]; rfl
      _ = gfSquare^[n + 1 + 1] a := by rw [ih, ← Function.iterate_succ_apply' gfSquare]

/-- The idempotents are the roots of `x ^ 2 - x`, and a field has no third one: checked for each of the 256 bytes. -/
theorem eq_zero_or_one_of_gfSquare_eq : ∀ e : Byte, gfSquare e = e → e = 0 ∨ e = 1 := by decide

/-- `a ^ 255 = 1`: it is idempotent, for `a * a ^ 255 = a`, and by the same equation it is not 0. -/
theorem gfPowOnes_seven_of_ne_zero {a : Byte} (ha : a ≠ 0) : gfPowOnes a 7 = 1 := by
  have hself : gmul a (gfPowOnes a 7) = a := (gmul_gfPowOnes a 7).trans (iterate_gfSquare_eight a)
  have hsquare : gfSquare (gfPowOnes a 7) = gfPowOnes a 7 :=
    calc gmul (gmul a (gfSquare (gfPowOnes a 6))) (gfPowOnes a 7)
      _ = gmul (gmul a (gfPowOnes a 7)) (gfSquare (gfPowOnes a 6)) := by
        rw [gmul_assoc, gmul_comm (gfSquare _), gmul_assoc]
      _ = gfPowOnes a 7 := by rw [hself]; rfl
  refine (eq_zero_or_one_of_gfSquare_eq _ hsquare).resolve_left fun hzero => ha ?_
  rw [← hself, hzero, gmul_zero_right]

/-- The inverse `a ^ 254` of a nonzero byte; 0x00 for 0x00. -/
def gfInverse (a : Byte) : Byte := gfSquare (gfPowOnes a 6)

theorem gmul_gfInverse {a : Byte} (ha : a ≠ 0) : gmul a (gfInverse a) = 1 := gfPowOnes_seven_of_ne_zero ha

theorem eq_of_gmul_eq_one {a b c : Byte} (hb : gmul a b = 1) (hc : gmul a c = 1) : c = b :=
  calc c = gmul (gmul a b) c := by rw [hb, gmul_one_left]
    _ = gmul b (gmul a c) := by rw [gmul_comm a b, gmul_assoc]
    _ = b := by rw [hc, gmul_one_right]

/-- Settles O36: linearity is the loop's, commutativity is by `gf_induction`, and the inverse of `a` is `a ^ 254`. -/
theorem gmulLaws : Obligations.GmulLaws :=
  ⟨fun a => ⟨gmul_zero_right a, gmul_zero_left a, gmul_one_right a, gmul_two a, gmul_three a⟩,
    gmul_xor_right, gmul_comm,
    fun a ha => ⟨gfInverse a, gmul_gfInverse ha, fun _ => eq_of_gmul_eq_one (gmul_gfInverse ha)⟩⟩

end Sys2Proof.Machine
end

section
/-! SUPPORT. The two ROMs as maps on bytes (41_substitution_tables.md R80), and from them O37. -/

namespace Sys2Proof.Machine

/-! ### Facts of the tables' entries, each checked for all 256 -/

/-- Each entry of INV_SBOX undoes the entry of SBOX it is found under (R78). -/
@[simp] theorem invSbox_sbox : ∀ x : Byte, invSbox (sbox x) = x := by decide

theorem sbox_ne_self : ∀ x : Byte, sbox x ≠ x := by decide

theorem sbox_ne_complement : ∀ x : Byte, sbox x ≠ x ^^^ 0xFF := by decide

/-! ### SBOX is a permutation -/

theorem sbox_injective : Function.Injective sbox := Function.LeftInverse.injective invSbox_sbox

/-- An injective map of the finite set of bytes into itself is onto. -/
theorem sbox_surjective : Function.Surjective sbox := Finite.surjective_of_injective sbox_injective

/-- The left inverse of a map that is onto is its right inverse too. -/
@[simp] theorem sbox_invSbox (x : Byte) : sbox (invSbox x) = x :=
  Function.LeftInverse.rightInverse_of_surjective invSbox_sbox sbox_surjective x

/-- Settles O37: INV_SBOX is a left inverse of SBOX by its entries, and so a right inverse; the rest is read off SBOX. -/
theorem substitutionRomsAreInverse : Obligations.SubstitutionRomsAreInverse :=
  ⟨fun x => ⟨sbox_invSbox x, invSbox_sbox x, sbox_ne_self x, sbox_ne_complement x⟩, rfl, rfl, rfl, rfl, rfl⟩

end Sys2Proof.Machine
end

section
/-! SUPPORT. The round transformation as operations on rows and columns (43_round_transformation.md R88 to R95), and
from them O47. `columnByte s c r` is the byte `s[r][c]` of R87, and a block is its sixteen bytes. MixColumns and
InvMixColumns are products with circulant matrices, and such products compose by the cyclic product of their
coefficients. -/

namespace Sys2Proof.Machine

theorem block_eq_of_columnByte {s t : Block} (h : ∀ c r : Fin 4, columnByte s c r = columnByte t c r) : s = t := by
  refine Vector.ext fun i hi => ?_
  have hbyte := h ⟨i / 4, by omega⟩ ⟨i % 4, by omega⟩
  simpa only [columnByte, Nat.div_add_mod] using hbyte

/-! ### Every primitive at row `r` and column `c` -/

theorem index_div_four (c r : Fin 4) : (4 * c.val + r.val) / 4 = c.val := by omega

theorem index_mod_four (c r : Fin 4) : (4 * c.val + r.val) % 4 = r.val := by omega

theorem columnByte_subBytes (s : Block) (c r : Fin 4) : columnByte (subBytes s) c r = sbox (columnByte s c r) :=
  getElem_subBytes s _ _

theorem columnByte_invSubBytes (s : Block) (c r : Fin 4) :
    columnByte (invSubBytes s) c r = invSbox (columnByte s c r) :=
  getElem_invSubBytes s _ _

theorem columnByte_shiftRows (s : Block) (c r : Fin 4) : columnByte (shiftRows s) c r = columnByte s (c + r) r := by
  simp only [columnByte, getElem_shiftRows, index_div_four, index_mod_four, Fin.val_add]

theorem columnByte_invShiftRows (s : Block) (c r : Fin 4) :
    columnByte (invShiftRows s) c r = columnByte s (c - r) r := by
  have hcol : (c.val + 4 - r.val) % 4 = (c - r).val := by rw [Fin.val_sub]; omega
  simp only [columnByte, getElem_invShiftRows, index_div_four, index_mod_four, hcol]

/-! ### SubBytes and ShiftRows -/

theorem invSubBytes_subBytes (s : Block) : invSubBytes (subBytes s) = s :=
  block_eq_of_columnByte fun c r => by rw [columnByte_invSubBytes, columnByte_subBytes, invSbox_sbox]

theorem invShiftRows_shiftRows (s : Block) : invShiftRows (shiftRows s) = s :=
  block_eq_of_columnByte fun c r => by rw [columnByte_invShiftRows, columnByte_shiftRows, sub_add_cancel]

theorem subBytes_shiftRows (s : Block) : subBytes (shiftRows s) = shiftRows (subBytes s) :=
  block_eq_of_columnByte fun c r => by simp only [columnByte_subBytes, columnByte_shiftRows]

theorem invSubBytes_invShiftRows (s : Block) : invSubBytes (invShiftRows s) = invShiftRows (invSubBytes s) :=
  block_eq_of_columnByte fun c r => by simp only [columnByte_invSubBytes, columnByte_invShiftRows]

/-- Row `r` is rotated by `4 * r` places in all, which is no rotation of four columns. -/
theorem shiftRows_four_times (s : Block) : shiftRows (shiftRows (shiftRows (shiftRows s))) = s := by
  have hturn : ∀ c r : Fin 4, c + r + r + r + r = c := by decide
  exact block_eq_of_columnByte fun c r => by simp only [columnByte_shiftRows, hturn]

/-! ### AddRoundKey -/

theorem addRoundKey_addRoundKey (w : Schedule) (r : Fin 15) (s : Block) :
    addRoundKey w r (addRoundKey w r s) = s := by
  refine Vector.ext fun i hi => ?_
  rw [getElem_addRoundKey, getElem_addRoundKey, BitVec.xor_assoc, BitVec.xor_self, BitVec.xor_zero]

/-! ### MixColumns -/

/-- Row `r` of the product of column `c` with the circulant matrix whose entry (r, j) is `k[(j - r) mod 4]`. -/
def circulantRow (k : Fin 4 → Byte) (s : Block) (c r : Fin 4) : Byte :=
  gmul (k 0) (columnByte s c r) ^^^ gmul (k 1) (columnByte s c (r + 1)) ^^^ gmul (k 2) (columnByte s c (r + 2))
    ^^^ gmul (k 3) (columnByte s c (r + 3))

/-- The product of every column with the circulant matrix of `k`. -/
def circulant (k : Fin 4 → Byte) (s : Block) : Block :=
  Vector.ofFn fun i => circulantRow k s ⟨i.val / 4, by omega⟩ ⟨i.val % 4, by omega⟩

/-- The coefficients of the product of two circulant matrices: the sum of `k[j] * l[m]` over `j + m = n`, modulo 4. -/
def cyclicProduct (k l : Fin 4 → Byte) (n : Fin 4) : Byte :=
  gmul (k 0) (l n) ^^^ gmul (k 1) (l (n - 1)) ^^^ gmul (k 2) (l (n - 2)) ^^^ gmul (k 3) (l (n - 3))

/-- The coefficients of MixColumns (R90). -/
def mixCoefficients : Fin 4 → Byte := ![2, 3, 1, 1]

/-- The coefficients of InvMixColumns (R94). -/
def invMixCoefficients : Fin 4 → Byte := ![14, 11, 13, 9]

/-- The coefficients of the identity matrix. -/
def unitCoefficients : Fin 4 → Byte := ![1, 0, 0, 0]

theorem columnByte_circulant (k : Fin 4 → Byte) (s : Block) (c r : Fin 4) :
    columnByte (circulant k s) c r = circulantRow k s c r := by
  simp only [columnByte, circulant, Vector.getElem_ofFn, index_div_four, index_mod_four, Fin.eta]

theorem mixColumns_eq_circulant (s : Block) : mixColumns s = circulant mixCoefficients s := by
  have hrow (c r : Fin 4) : mixRow s c r = circulantRow mixCoefficients s c r := by
    simp only [mixRow, circulantRow, mixCoefficients, Matrix.cons_val, gmul_one_left]
  simp only [mixColumns, circulant, hrow]

theorem invMixColumns_eq_circulant (s : Block) : invMixColumns s = circulant invMixCoefficients s := rfl

theorem circulant_unitCoefficients (s : Block) : circulant unitCoefficients s = s :=
  block_eq_of_columnByte fun c r => by
    simp only [columnByte_circulant, circulantRow, unitCoefficients, Matrix.cons_val, gmul_one_left, gmul_zero_left]
    simp only [BitVec.ofNat_eq_ofNat, BitVec.xor_zero]

/-- Byte `r + j + m` of the column has coefficient `k[j] * l[m]` on the left; the right gathers these by `j + m`. -/
theorem circulant_circulant (k l : Fin 4 → Byte) (s : Block) :
    circulant k (circulant l s) = circulant (cyclicProduct k l) s := by
  refine block_eq_of_columnByte fun c r => ?_
  simp only [columnByte_circulant, circulantRow, cyclicProduct, gmul_xor_right, gmul_xor_left, gmul_assoc, add_assoc]
  simp only [Fin.reduceAdd, Fin.reduceSub, add_zero]
  ac_rfl

theorem cyclicProduct_invMixCoefficients : cyclicProduct invMixCoefficients mixCoefficients = unitCoefficients := by
  decide

theorem cyclicProduct_mixCoefficients_four_times :
    cyclicProduct mixCoefficients (cyclicProduct mixCoefficients (cyclicProduct mixCoefficients mixCoefficients))
      = unitCoefficients := by
  decide

theorem invMixColumns_mixColumns (s : Block) : invMixColumns (mixColumns s) = s := by
  rw [invMixColumns_eq_circulant, mixColumns_eq_circulant, circulant_circulant, cyclicProduct_invMixCoefficients,
    circulant_unitCoefficients]

theorem mixColumns_four_times (s : Block) : mixColumns (mixColumns (mixColumns (mixColumns s))) = s := by
  simp only [mixColumns_eq_circulant, circulant_circulant, cyclicProduct_mixCoefficients_four_times,
    circulant_unitCoefficients]

/-- Settles O47: SubBytes works byte by byte, ShiftRows on the column index alone, and the matrices of MixColumns and
InvMixColumns are circulant with product 1, as is the fourth power of the first. -/
theorem roundPrimitivesInvert : Obligations.RoundPrimitivesInvert :=
  ⟨fun s => ⟨invSubBytes_subBytes s, invShiftRows_shiftRows s, invMixColumns_mixColumns s, subBytes_shiftRows s,
    invSubBytes_invShiftRows s, shiftRows_four_times s, mixColumns_four_times s⟩, addRoundKey_addRoundKey⟩

end Sys2Proof.Machine
end

section
/-! SUPPORT. `unpad` on a valid padding, and the blocks of one repeated byte (45_cbc_padding.md R109 to R112), and from
them O52. -/

namespace Sys2Proof.Machine

/-- `unpad` removes a valid padding (R110): the last byte is `p`, and the last `p` bytes are the padding. -/
theorem unpad_append_padding (D : List Byte) {p : Nat} (h1 : 1 ≤ p) (h16 : p ≤ 16) :
    unpad (D ++ List.replicate p (BitVec.ofNat 8 p)) = D := by
  have hp : (BitVec.ofNat 8 p).toNat = p := by rw [BitVec.toNat_ofNat]; omega
  have hlast : (D ++ List.replicate p (BitVec.ofNat 8 p)).getLast? = some (BitVec.ofNat 8 p) := by
    simp [List.getLast?_append, List.getLast?_replicate, Nat.ne_of_gt h1]
  have hfront : (D ++ List.replicate p (BitVec.ofNat 8 p)).length - p = D.length := by simp
  simp only [unpad, hlast, hp, hfront, List.drop_left, List.take_left]
  exact if_pos ⟨h1, h16, by simp, trivial⟩

theorem unpad_pad (D : List Byte) : unpad (pad D) = D :=
  unpad_append_padding D (by omega) (by omega)

theorem pad_nil : pad [] = List.replicate 16 0x10 := rfl

theorem xorBlock_zeroBlock (b : Block) : xorBlock b zeroBlock = b :=
  Vector.ext fun i hi => by simp

/-- Sixteen equal bytes are one block. -/
theorem blocksOf_replicate_sixteen (x : Byte) : blocksOf (List.replicate 16 x) = [Vector.replicate 16 x] := by
  have hblock : blockAt (List.replicate 16 x) 0 = Vector.replicate 16 x :=
    Vector.ext fun i hi => by
      rw [getElem_blockAt, Nat.mul_zero, Nat.zero_add, List.getD_replicate _ hi, Vector.getElem_replicate]
  simp only [blocksOf, List.length_replicate, Nat.reduceDiv, List.range_one, List.map_singleton, hblock]

/-- The first block of a CBC encryption is chained to the zero block, so it is encrypted as it is (R112). -/
theorem cbcEncrypt_singleton (w : Schedule) (b : Block) : (cbcEncrypt w zeroBlock [b]).1 = [encryptBlock b w] := by
  simp only [cbcEncrypt, xorBlock_zeroBlock]

/-- Settles O52: `pad` appends between 1 and 16 bytes of that value, which `unpad` removes, and the empty sequence's
padding is one block, xored with the zero block before its encryption. -/
theorem paddingLengthLaw : Obligations.PaddingLengthLaw := by
  refine ⟨fun D => ⟨length_pad D, unpad_pad D⟩, pad_nil, fun w => ?_⟩
  rw [pad_nil, blocksOf_replicate_sixteen, cbcEncrypt_singleton]

end Sys2Proof.Machine
end

section
/-! SUPPORT. Which words are ILLEGAL and how one completes (30_encoding.md R62, R63, 60_exceptions.md R126), and from
them O3. -/

namespace Sys2Proof

/-- The OPCODE column of the opcode map (R61): ADDRK's 0x33 and the nineteen others. -/
def assignedOpcodes : List Byte :=
  [0x00, 0x01, 0x10, 0x11, 0x12, 0x13, 0x20, 0x30, 0x31, 0x32, 0x33, 0x34, 0x35, 0x36, 0x40, 0x41, 0x50, 0x51, 0x52,
    0x53]

/-- The rows that `plainCommand` lists are those of R61 but ADDRK's. -/
theorem plainCommand_eq_none_iff : ∀ op : Byte, plainCommand op = none ↔ op ∉ assignedOpcodes ∨ op = 0x33 := by decide

theorem roundIndex_le_fourteen_iff : ∀ r : BitVec 4, r.toNat ≤ 14 ↔ r ≠ 15 := by decide

/-- The four causes of R126, along the tests of `decode` (R62). -/
theorem decode_illegal_iff (w : Word) :
    (∃ why, decode w = .illegal why) ↔
      (rsvField w ≠ 0 ∨ opcodeField w ∉ assignedOpcodes ∨ (ridxField w ≠ 0 ∧ opcodeField w ≠ 0x33) ∨
       (opcodeField w = 0x33 ∧ ridxField w = 15)) := by
  unfold decode
  split_ifs with hrsv hop hr hridx
  · exact iff_of_true ⟨_, rfl⟩ (.inl hrsv)
  · have hassigned : opcodeField w ∈ assignedOpcodes := by rw [hop]; decide
    have hindex := (roundIndex_le_fourteen_iff _).1 hr
    refine iff_of_false nofun ?_
    rintro (h | h | ⟨-, h⟩ | ⟨-, h⟩)
    exacts [hrsv h, h hassigned, h hop, hindex h]
  · have hindex : ridxField w = 15 := not_not.1 (mt (roundIndex_le_fourteen_iff _).2 hr)
    exact iff_of_true ⟨_, rfl⟩ (.inr (.inr (.inr ⟨hop, hindex⟩)))
  · exact iff_of_true ⟨_, rfl⟩ (.inr (.inr (.inl ⟨hridx, hop⟩)))
  · have hplain := plainCommand_eq_none_iff (opcodeField w)
    cases hc : plainCommand (opcodeField w) with
    | none => exact iff_of_true ⟨_, rfl⟩ (.inr (.inl ((hplain.1 hc).resolve_right hop)))
    | some i =>
      have hassigned : ¬ opcodeField w ∉ assignedOpcodes := fun h => nomatch hc.symm.trans (hplain.2 (.inl h))
      refine iff_of_false nofun ?_
      rintro (h | h | ⟨h, -⟩ | ⟨h, -⟩)
      exacts [hrsv h, hassigned h, hridx h, hop h]

end Sys2Proof

namespace Sys2Proof.Machine

/-- An ILLEGAL word completes with E_ILLEGAL (R65, R126). -/
theorem complete_of_illegal {w : Word} {why : Illegal} (h : decode w = .illegal why) (s : State) :
    complete w s = .next (goIdle (raise eIllegal s)) := by
  rw [complete, h]
  rfl

/-- Settles O3: the causes are the tests of `decode`, and the step of a due ILLEGAL word is its completion, which raises
E_ILLEGAL and goes idle. -/
theorem illegalWordSetsErrcodeOnly : Obligations.IllegalWordSetsErrcodeOnly := by
  refine fun w => ⟨decode_illegal_iff w, fun s hdue ⟨why, hw⟩ => ?_⟩
  rw [step_due hdue, complete_of_illegal hw]
  rfl

end Sys2Proof.Machine
end

section
/-! SUPPORT. The commands that need a schedule when SCHED_VALID = 0 (60_exceptions.md R127), the bus write to KEY that
clears it (10_state.md R22), and from them O46. -/

namespace Sys2Proof.Machine

theorem exec_addrk_invalid {r : BitVec 4} (h : r.toNat < 15) {s : State} (hv : s.schedValid = false) :
    exec (.addrk r) s = .next (raise eNosched s) := by
  simp [exec, execAddrk, h, hv]

theorem exec_encblock_invalid {s : State} (hv : s.schedValid = false) :
    exec .encblock s = .next (raise eNosched s) := by
  simp [exec, execEncblock, hv]

theorem exec_decblock_invalid {s : State} (hv : s.schedValid = false) :
    exec .decblock s = .next (raise eNosched s) := by
  simp [exec, execDecblock, hv]

/-- The words from 0x100 to 0x11C of the map are KEY's (R40). -/
theorem target_of_key_address {a : Addr} (hlo : 0x100 ≤ (a &&& 0x3FFFC).toNat) (hhi : (a &&& 0x3FFFC).toNat ≤ 0x11C) :
    ∃ n, target a = .key n := by
  obtain ⟨o, ho⟩ := Nat.exists_eq_add_of_le hlo
  exact ⟨_, targetAt_key ho (by omega)⟩

/-- The step on a bus write to a KEY word with BUSY = 0 replaces the word and clears SCHED_VALID (R22). -/
theorem step_idle_write_key {s : State} {a : Addr} {d : Word} {rest : List HostEvent} (h : Idle s)
    (hh : s.host = .write a d :: rest) {n : Fin 8} (ha : target a = .key n) :
    step s = .next { s with host := rest, key := setWindowWord s.key n.val d, schedValid := false } := by
  rw [step_idle_write h hh, ha, idleWrite]

/-- Settles O46: each of the three commands looks at SCHED_VALID first, and the map sends every address of the KEY
window to a KEY word. -/
theorem noScheduleRaisesENosched : Obligations.NoScheduleRaisesENosched := by
  refine ⟨fun s hv => ⟨fun r hr => exec_addrk_invalid (by omega) hv, exec_encblock_invalid hv,
    exec_decblock_invalid hv⟩, rfl, fun s t a d rest hidle hhost hlo hhi ht => ?keyWrite⟩
  case keyWrite =>
    obtain ⟨n, hn⟩ := target_of_key_address hlo hhi
    obtain rfl := Host.Outcome.next.inj ((step_idle_write_key hidle hhost hn).symm.trans ht)
    rfl

end Sys2Proof.Machine
end

section
/-! SUPPORT. The decoder and the encoder undo each other (30_encoding.md R57, R61, R62), and from them O1 and O2. -/

namespace Sys2Proof

/-- Every well-formed command is read back from its encoding; of ADDRK each round index is checked. -/
theorem decode_encode {i : Instr} (h : i.WellFormed) : decode (encode i) = .command i := by
  cases i
  case addrk r => revert r; decide
  all_goals rfl

/-- The decoder answers well-formed commands only: it refuses ADDRK's round index 15 (R62). -/
theorem wellFormed_of_decode {w : Word} {i : Instr} (h : decode w = .command i) : i.WellFormed := by
  obtain rfl := encode_of_decode h
  cases i
  case addrk r => revert r; decide
  all_goals rfl

/-- Settles O2: a decoded word is the encoding of its command, and a well-formed command's encoding decodes to it. -/
theorem decodeInvertsEncode : Obligations.DecodeInvertsEncode :=
  fun _ _ => ⟨fun h => ⟨wellFormed_of_decode h, encode_of_decode h⟩, fun ⟨hi, hw⟩ => hw ▸ decode_encode hi⟩

/-- Settles O1: the nine words are encodings, and each of the four others meets one test of `decode`. -/
theorem opcodeMapWordsDecode : Obligations.OpcodeMapWordsDecode :=
  ⟨decode_encode (i := .nop) rfl, decode_encode (i := .clrstat) rfl, decode_encode (i := .xtime) rfl,
    decode_encode (i := .invsbox) rfl, decode_encode (i := .keyexp) rfl, decode_encode (i := .addrk 14) rfl,
    decode_encode (i := .invmixcolumns) rfl, decode_encode (i := .decblock) rfl, decode_encode (i := .unpad) rfl,
    rfl, rfl, rfl, rfl⟩

end Sys2Proof
end

section
/-! SUPPORT. The four buffer commands, one law per outcome (45_cbc_padding.md R114 to R117, 60_exceptions.md R128, R130),
and from them O53 to O56. -/

namespace Sys2Proof.Machine

/-! ### INLEN too large -/

theorem exec_cbcenc_overCapacity {s : State} (h : Config.bufBytes ≤ s.inlen.toNat) :
    exec .cbcenc s = .next (overCapacity s) := by
  rw [exec, execCbcenc, cbcencAt, if_pos h]

theorem exec_pad_overCapacity {s : State} (h : Config.bufBytes ≤ s.inlen.toNat) :
    exec .pad s = .next (overCapacity s) := by
  rw [exec, execPad, padAt, if_pos h]

theorem exec_cbcdec_overCapacity {s : State} (h : Config.bufBytes < s.inlen.toNat) :
    exec .cbcdec s = .next (overCapacity s) := by
  rw [exec, execCbcdec, cbcdecAt, if_pos h]

theorem exec_unpad_overCapacity {s : State} (h : Config.bufBytes < s.inlen.toNat) :
    exec .unpad s = .next (overCapacity s) := by
  rw [exec, execUnpad, unpadAt, if_pos h]

/-! ### An invalid key length or a misaligned ciphertext -/

theorem exec_cbcenc_invalid {s : State} (hc : s.inlen.toNat < Config.bufBytes) (hk : s.keylen ≠ 32) :
    exec .cbcenc s = .next (emptyResult s) := by
  rw [exec, execCbcenc, cbcencAt, if_neg (Nat.not_le.2 hc), if_pos hk]

theorem exec_cbcdec_invalid {s : State} (hc : s.inlen.toNat ≤ Config.bufBytes)
    (hk : s.keylen ≠ 32 ∨ s.inlen.toNat % 16 ≠ 0) : exec .cbcdec s = .next (emptyResult s) := by
  rw [exec, execCbcdec, cbcdecAt, if_neg (Nat.not_lt.2 hc), if_pos hk]

/-! ### Output -/

/-- The state after a buffer command has put the bytes `v` into OUTBUF[0..OUTLEN): what PAD and UNPAD leave. -/
def withOutput (v : List Byte) (s : State) : State :=
  { s with outbuf := Memory.ofBytes 0 v, outlen := BitVec.ofNat 32 v.length, errcode := eNone,
           draws := s.draws + s.inlen.toNat }

theorem exec_pad_valid {s : State} (h : s.inlen.toNat < Config.bufBytes) :
    exec .pad s = .next (withOutput (pad (inputBytes s)) s) := by
  rw [exec, execPad, padAt, if_neg (Nat.not_le.2 h)]
  simp only [succeed, pastDraws, storeOutput, List.take_length, withOutput]

theorem exec_unpad_valid {s : State} (h : s.inlen.toNat ≤ Config.bufBytes) :
    exec .unpad s = .next (withOutput (unpad (inputBytes s)) s) := by
  rw [exec, execUnpad, unpadAt, if_neg (Nat.not_lt.2 h)]
  simp only [succeed, pastDraws, storeOutput, ← unpad_eq_take, withOutput]

/-- The padded input fits the buffer when the input leaves room for a byte (R109). -/
theorem length_padded_le {n : Nat} (h : n < Config.bufBytes) : 16 * (n / 16 + 1) ≤ Config.bufBytes := by
  have := bufBytes_bounds
  omega

theorem length_padded_input (s : State) : (pad (inputBytes s)).length = 16 * (s.inlen.toNat / 16 + 1) := by
  rw [length_pad, length_inputBytes]

/-! ### Obligations -/

/-- Settles O53: OUTBUF lists the padded or unpadded input and no other byte. -/
theorem padAndUnpadFillOutbuf : Obligations.PadAndUnpadFillOutbuf := by
  refine fun s => ⟨fun h => ⟨_, ?pad, Memory.byte?_ofBytes_zero _⟩,
    fun h => ⟨_, exec_unpad_valid h, Memory.byte?_ofBytes_zero _⟩⟩
  case pad => rw [exec_pad_valid h, withOutput, length_padded_input]; rfl

/-- Settles O54: a written byte is read as it is, and no draw is made of it. -/
theorem inputIsTheBufferContents : Obligations.InputIsTheBufferContents :=
  fun s => ⟨length_inputBytes s, fun k b hk hb => by
    rw [getElem?_inputBytes, if_pos hk, Memory.draw_of_byte? hb]⟩

/-- Settles O56: both checks end in the empty result. -/
theorem invalidInputsGiveEmptyResult : Obligations.InvalidInputsGiveEmptyResult :=
  fun _ => ⟨exec_cbcenc_invalid, exec_cbcdec_invalid⟩

/-- Settles O55: the capacity is the first test of each command, and past it every outcome has E_NONE. -/
theorem capacityIsCheckedFirst : Obligations.CapacityIsCheckedFirst := by
  refine fun s => ⟨fun h => ⟨exec_cbcenc_overCapacity h, exec_pad_overCapacity h⟩,
    fun h => ⟨exec_cbcdec_overCapacity h, exec_unpad_overCapacity h⟩, fun h => ?enc, fun h => ?dec⟩
  case enc =>
    by_cases hk : s.keylen = 32
    · exact ⟨_, _, exec_cbcenc_valid hk h, rfl, exec_pad_valid h, rfl⟩
    · exact ⟨_, _, exec_cbcenc_invalid h hk, rfl, exec_pad_valid h, rfl⟩
  case dec =>
    by_cases hk : s.keylen ≠ 32 ∨ s.inlen.toNat % 16 ≠ 0
    · exact ⟨_, _, exec_cbcdec_invalid h hk, rfl, exec_unpad_valid h, rfl⟩
    · obtain ⟨hk, ha⟩ : s.keylen = 32 ∧ s.inlen.toNat % 16 = 0 := by simpa using hk
      exact ⟨_, _, exec_cbcdec_valid hk h ha, rfl, exec_unpad_valid h, rfl⟩

end Sys2Proof.Machine
end

section
/-! SUPPORT. What each command can do, said once as an inductive relation, and from it O31 and O32 (10_state.md R15 to
R33). The invariant and the writers of SCHED_VALID are read off the same relation. -/

namespace Sys2Proof.Machine

/-- The state after a CBC command with a valid key has written its output `v`, CHAIN and STATE (R114, R115). -/
def withCbcOutput (v : List Byte) (chain state : Block) (s : State) : State :=
  withOutput v { s with rk := expand s.key, schedValid := true, chain := chain, state := state }

theorem cbcEncryptInput_eq_withCbcOutput (s : State) :
    cbcEncryptInput s = withCbcOutput (bytesOf (encryptRun s).1) (encryptRun s).2 (encryptRun s).2 s := by
  rw [cbcEncryptInput_eq, withCbcOutput, withOutput]

theorem cbcDecryptInput_eq_withCbcOutput (s : State) :
    cbcDecryptInput s = withCbcOutput (unpad (bytesOf (decryptRun s).1)) (decryptRun s).2.1
      ((decryptRun s).2.2.getD s.state) s := by
  rw [cbcDecryptInput_eq, withCbcOutput, withOutput]

/-- `Effect s i t`: the command `i` may take the state `s` to `t`. Each constructor names a group of commands and all that
it writes; every command may end with a result code alone. -/
inductive Effect (s : State) : Instr → State → Prop where
  | code (i : Instr) {c : BitVec 4} (hc : c.toNat ≤ 3) : Effect s i (raise c s)
  | clear : Effect s .clrstat (succeed (withOverrun false s))
  | result {i : Instr} (hi : i ∈ [.gfmul, .xtime, .sbox, .invsbox]) (b : Byte) : Effect s i (succeed (withResult b s))
  | schedule : Effect s .keyexp (succeed (withSchedule (expand s.key) s))
  | transform {i : Instr}
      (hi : i ∉ [.nop, .clrstat, .gfmul, .xtime, .sbox, .invsbox, .keyexp, .pad, .unpad])
      (f : Block → Block) : Effect s i (transformState f s)
  | empty {i : Instr} (hi : i ∈ [.cbcenc, .cbcdec, .pad, .unpad]) {c : BitVec 4} (hc : c.toNat ≤ 3) :
      Effect s i (raise c (emptyOutput s))
  | output {i : Instr} (hi : i ∈ [.pad, .unpad]) {v : List Byte} (hv : v.length ≤ Config.bufBytes) :
      Effect s i (withOutput v s)
  | cbc {i : Instr} (hi : i ∈ [.cbcenc, .cbcdec]) {v : List Byte} (hv : v.length ≤ Config.bufBytes)
      (chain state : Block) : Effect s i (withCbcOutput v chain state s)

/-! ### Every command has one of these effects -/

theorem exec_addrk_effect (r : BitVec 4) {s t : State} (h : exec (.addrk r) s = .next t) : Effect s (.addrk r) t := by
  rw [exec] at h
  unfold execAddrk at h
  split_ifs at h <;> cases h
  · exact .transform (by simp) _
  · exact .code _ (by decide)
  · exact .code _ (by decide)

theorem exec_encblock_effect {s t : State} (h : exec .encblock s = .next t) : Effect s .encblock t := by
  cases hv : s.schedValid
  · cases (exec_encblock_invalid hv).symm.trans h
    exact .code _ (by decide)
  · cases (exec_encblock_valid hv).symm.trans h
    exact .transform (by decide) _

theorem exec_decblock_effect {s t : State} (h : exec .decblock s = .next t) : Effect s .decblock t := by
  cases hv : s.schedValid
  · cases (exec_decblock_invalid hv).symm.trans h
    exact .code _ (by decide)
  · cases (exec_decblock_valid hv).symm.trans h
    exact .transform (by decide) _

theorem exec_pad_effect {s t : State} (h : exec .pad s = .next t) : Effect s .pad t := by
  by_cases hc : Config.bufBytes ≤ s.inlen.toNat
  · cases (exec_pad_overCapacity hc).symm.trans h
    exact .empty (by decide) (by decide)
  · have hc := Nat.lt_of_not_le hc
    cases (exec_pad_valid hc).symm.trans h
    exact .output (by decide) (length_padded_input s ▸ length_padded_le hc)

theorem exec_unpad_effect {s t : State} (h : exec .unpad s = .next t) : Effect s .unpad t := by
  by_cases hc : Config.bufBytes < s.inlen.toNat
  · cases (exec_unpad_overCapacity hc).symm.trans h
    exact .empty (by decide) (by decide)
  · have hc := Nat.le_of_not_lt hc
    have hlen : (unpad (inputBytes s)).length ≤ s.inlen.toNat := length_inputBytes s ▸ length_unpad_le _
    cases (exec_unpad_valid hc).symm.trans h
    exact .output (by decide) (hlen.trans hc)

theorem exec_cbcenc_effect {s t : State} (h : exec .cbcenc s = .next t) : Effect s .cbcenc t := by
  by_cases hc : Config.bufBytes ≤ s.inlen.toNat
  · cases (exec_cbcenc_overCapacity hc).symm.trans h
    exact .empty (by decide) (by decide)
  · have hc := Nat.lt_of_not_le hc
    by_cases hk : s.keylen = 32
    · cases (exec_cbcenc_valid hk hc).symm.trans h
      rw [cbcEncryptInput_eq_withCbcOutput]
      exact .cbc (by decide) (length_encryptRun s ▸ length_padded_le hc) _ _
    · cases (exec_cbcenc_invalid hc hk).symm.trans h
      exact .empty (by decide) (by decide)

theorem exec_cbcdec_effect {s t : State} (h : exec .cbcdec s = .next t) : Effect s .cbcdec t := by
  by_cases hc : Config.bufBytes < s.inlen.toNat
  · cases (exec_cbcdec_overCapacity hc).symm.trans h
    exact .empty (by decide) (by decide)
  · have hc := Nat.le_of_not_lt hc
    by_cases hk : s.keylen ≠ 32 ∨ s.inlen.toNat % 16 ≠ 0
    · cases (exec_cbcdec_invalid hc hk).symm.trans h
      exact .empty (by decide) (by decide)
    · obtain ⟨hk, ha⟩ : s.keylen = 32 ∧ s.inlen.toNat % 16 = 0 := by simpa using hk
      have hlen : (unpad (bytesOf (decryptRun s).1)).length ≤ s.inlen.toNat := length_decryptRun ha ▸ length_unpad_le _
      cases (exec_cbcdec_valid hk hc ha).symm.trans h
      rw [cbcDecryptInput_eq_withCbcOutput]
      exact .cbc (by decide) (hlen.trans hc) _ _

theorem exec_effect {i : Instr} {s t : State} (h : exec i s = .next t) : Effect s i t := by
  cases i
  case addrk r => exact exec_addrk_effect r h
  case encblock => exact exec_encblock_effect h
  case decblock => exact exec_decblock_effect h
  case pad => exact exec_pad_effect h
  case unpad => exact exec_unpad_effect h
  case cbcenc => exact exec_cbcenc_effect h
  case cbcdec => exact exec_cbcdec_effect h
  case nop => cases h; exact .code _ (by decide)
  case clrstat => cases h; exact .clear
  case keyexp => cases h; exact .schedule
  case gfmul | xtime | sbox | invsbox => cases h; exact .result (by decide) _
  all_goals cases h; exact .transform (by decide) _

/-! ### Obligations -/

/-- Settles O31: the frame of `exec` names none of these fields. -/
theorem commandsLeaveInputsAlone : Obligations.CommandsLeaveInputsAlone := by
  intro i s t h
  rw [exec_frame h]
  exact ⟨rfl, rfl, rfl, rfl, rfl, fun _ => rfl, rfl, rfl, rfl, rfl⟩

/-- Settles O32: an effect writes the fields of its own group, and of every other field the clause is the frame. -/
theorem outputsHaveTheirOwnWriters : Obligations.OutputsHaveTheirOwnWriters := by
  intro i s t h
  cases exec_effect h with
  | code _ _ =>
    exact ⟨fun _ => rfl, fun _ => ⟨rfl, rfl⟩, fun _ => rfl, fun _ => ⟨rfl, fun _ => rfl⟩, fun _ => rfl, fun _ => rfl⟩
  | clear =>
    exact ⟨fun _ => rfl, fun _ => ⟨rfl, rfl⟩, fun _ => rfl, fun _ => ⟨rfl, fun _ => rfl⟩, fun _ => rfl,
      fun hne => absurd rfl hne⟩
  | result hi b =>
    exact ⟨fun hn => absurd hi hn, fun _ => ⟨rfl, rfl⟩, fun _ => rfl, fun _ => ⟨rfl, fun _ => rfl⟩, fun _ => rfl,
      fun _ => rfl⟩
  | schedule => simp
  | transform hi f =>
    exact ⟨fun _ => rfl, fun _ => ⟨rfl, rfl⟩, fun _ => rfl, fun _ => ⟨rfl, fun _ => rfl⟩, fun hm => absurd hm hi,
      fun _ => rfl⟩
  | empty hi _ =>
    exact ⟨fun _ => rfl, fun _ => ⟨rfl, rfl⟩, fun _ => rfl, fun hn => absurd hi hn, fun _ => rfl, fun _ => rfl⟩
  | output hi _ =>
    have hbuffer := List.mem_append_right [.cbcenc, .cbcdec] hi
    exact ⟨fun _ => rfl, fun _ => ⟨rfl, rfl⟩, fun _ => rfl, fun hn => absurd hbuffer hn, fun _ => rfl, fun _ => rfl⟩
  | cbc hi _ chain state =>
    have hschedule := List.mem_cons_of_mem .keyexp hi
    have hbuffer := List.mem_append_left [.pad, .unpad] hi
    have hstate : ∀ j ∈ [Instr.cbcenc, .cbcdec],
        j ∉ [.nop, .clrstat, .gfmul, .xtime, .sbox, .invsbox, .keyexp, .pad, .unpad] := by decide
    refine ⟨fun _ => ?_, fun hn => absurd hschedule hn, fun hn => absurd hi hn, fun hn => absurd hbuffer hn,
      fun hm => absurd hm (hstate i hi), fun _ => ?_⟩ <;> rw [withCbcOutput, withOutput]

end Sys2Proof.Machine
end

section
/-! SUPPORT. The host's turn, said once: what each access does, and what it leaves of the core (20_memory.md R48 to R53,
70_reset_and_hazards.md R139). -/

namespace Sys2Proof.Machine

/-! ### A bus write by who finds it -/

theorem busWrite_busy {cap : Nat} {a : Addr} {d : Word} {s : State} (h : s.busy = true) :
    busWrite cap a d s = withOverrun true s := if_pos h

theorem busWrite_idle {cap : Nat} {a : Addr} {d : Word} {s : State} (h : s.busy = false) :
    busWrite cap a d s = idleWrite cap d s (target a) := if_neg (by simp [h])

/-! ### The host's turn by its next event -/

theorem hostAccess_nil {cap : Nat} {s : State} (h : s.host = []) : hostAccess cap s = s := by
  simp only [hostAccess, h]

theorem hostAccess_write {cap : Nat} {s : State} {a : Addr} {d : Word} {rest : List HostEvent}
    (h : s.host = .write a d :: rest) : hostAccess cap s = busWrite cap a d { s with host := rest } := by
  simp only [hostAccess, h]

theorem hostAccess_read {cap : Nat} {s : State} {a : Addr} {rest : List HostEvent} (h : s.host = .read a :: rest) :
    hostAccess cap s = busRead cap a { s with host := rest } := by
  simp only [hostAccess, h]

theorem hostAccess_wait_busy {cap : Nat} {s : State} {rest : List HostEvent} (h : s.host = .wait :: rest)
    (hb : s.busy = true) : hostAccess cap s = busRead cap statusAddr s := by
  simp only [hostAccess, h, hb, if_true]

theorem hostAccess_wait_idle {cap : Nat} {s : State} {rest : List HostEvent} (h : s.host = .wait :: rest)
    (hb : s.busy = false) : hostAccess cap s = busRead cap statusAddr { s with host := rest } := by
  simp only [hostAccess, h, hb, Bool.false_eq_true, if_false]

theorem hostAccess_resetOn {cap : Nat} {s : State} {rest : List HostEvent} (h : s.host = .resetOn :: rest) :
    hostAccess cap s = assertReset { s with host := rest } := by
  simp only [hostAccess, h]

theorem hostAccess_resetOff {cap : Nat} {s : State} {rest : List HostEvent} (h : s.host = .resetOff :: rest) :
    hostAccess cap s = { s with host := rest } := by
  simp only [hostAccess, h]

/-! ### What the host's turn does to the core -/

/-- The host's turn is a bus write, or it asserts reset, or it leaves the core, the reset level and the count of turns as
they are. -/
theorem hostAccess_cases (cap : Nat) (s : State) :
    (∃ a d rest, s.host = .write a d :: rest ∧ hostAccess cap s = busWrite cap a d { s with host := rest }) ∨
    (∃ rest, s.host = .resetOn :: rest ∧ hostAccess cap s = assertReset { s with host := rest }) ∨
    (SameCore s (hostAccess cap s) ∧ (hostAccess cap s).resetLine = s.resetLine ∧
      (hostAccess cap s).delay = s.delay) := by
  rcases hh : s.host with _ | ⟨e, rest⟩
  · rw [hostAccess_nil hh]
    exact .inr (.inr ⟨rfl, rfl, rfl⟩)
  cases e with
  | write a d => exact .inl ⟨a, d, rest, rfl, hostAccess_write hh⟩
  | resetOn => exact .inr (.inl ⟨rest, rfl, hostAccess_resetOn hh⟩)
  | read a => rw [hostAccess_read hh]; exact .inr (.inr ⟨rfl, rfl, rfl⟩)
  | resetOff => rw [hostAccess_resetOff hh]; exact .inr (.inr ⟨rfl, rfl, rfl⟩)
  | wait =>
    cases hb : s.busy
    · rw [hostAccess_wait_idle hh hb]; exact .inr (.inr ⟨rfl, rfl, rfl⟩)
    · rw [hostAccess_wait_busy hh hb]; exact .inr (.inr ⟨rfl, rfl, rfl⟩)

/-- While reset is asserted the host's turn leaves the core as it is (R139). -/
theorem hostAccessInReset_sameCore (s : State) : SameCore s (hostAccessInReset s) := by
  unfold hostAccessInReset
  split <;> rfl

/-- With BUSY = 1 the host's turn either abandons the command or changes nothing of the core but OVERRUN, which it may set
(R49, R139). -/
theorem hostAccess_busy {cap : Nat} {s : State} (hb : s.busy = true) :
    (hostAccess cap s).pending = none ∨
    (∃ b, SameCore { s with overrun := b } (hostAccess cap s) ∧ (s.overrun = true → b = true) ∧
      (hostAccess cap s).resetLine = s.resetLine ∧ (hostAccess cap s).delay = s.delay) := by
  obtain ⟨a, d, rest, -, h⟩ | ⟨rest, -, h⟩ | ⟨hcore, hreset, hdelay⟩ := hostAccess_cases cap s
  · have hb' : State.busy { s with host := rest } = true := hb
    rw [h, busWrite_busy hb']
    exact .inr ⟨true, rfl, fun _ => rfl, rfl, rfl⟩
  · rw [h]
    exact .inl rfl
  · exact .inr ⟨s.overrun, hcore, id, hreset, hdelay⟩

/-- With BUSY = 0 and reset released the host's turn makes a command pending only by a write to CMD (R64). -/
theorem hostAccess_idle_pending (cap : Nat) {s : State} (h : Idle s) :
    (hostAccess cap s).pending = none ∨ ∃ a d rest, s.host = .write a d :: rest ∧ target a = .cmd := by
  obtain ⟨a, d, rest, hh, ha⟩ | ⟨rest, -, hr⟩ | ⟨hcore, -⟩ := hostAccess_cases cap s
  · by_cases hcmd : target a = .cmd
    · exact .inr ⟨a, d, rest, hh, hcmd⟩
    · rw [ha, busWrite_idle (show State.busy { s with host := rest } = false from h.busy_eq), idleWrite_pending hcmd]
      exact .inl h.noCommand
  · rw [hr]
    exact .inl rfl
  · exact .inl ((congrArg Arch.pending hcore).trans h.noCommand)

/-! ### What is left of the host's accesses -/

theorem hostAccess_idle_host (cap : Nat) {s : State} (h : Idle s) : (hostAccess cap s).host = s.host.tail := by
  rcases hh : s.host with _ | ⟨e, rest⟩
  · rw [hostAccess_nil hh, hh, List.tail_nil]
  cases e with
  | write a d =>
    rw [hostAccess_write hh, busWrite_idle (show State.busy { s with host := rest } = false from h.busy_eq),
      idleWrite_frame]
    rfl
  | wait => rw [hostAccess_wait_idle hh h.busy_eq]; rfl
  | read a => rw [hostAccess_read hh]; rfl
  | resetOn => rw [hostAccess_resetOn hh]; rfl
  | resetOff => rw [hostAccess_resetOff hh]; rfl

theorem hostAccessInReset_host (s : State) : (hostAccessInReset s).host = s.host.tail := by
  unfold hostAccessInReset
  split
  · next hh => rw [hh, List.tail_nil]
  all_goals next hh => rw [hh, List.tail_cons]

/-- A completion does nothing on the bus (R65). -/
theorem complete_host {w : Word} {s t : State} (h : complete w s = .next t) : t.host = s.host := by
  obtain ⟨u, rfl, ⟨i, -, hu⟩ | ⟨why, -, rfl⟩⟩ := complete_cases h
  · rw [exec_frame hu]; rfl
  · rfl

end Sys2Proof.Machine
end

section
/-! SUPPORT. The invariant of the core, part by part of a step, and from it O8 and O9 (10_state.md R22, R24, R30, R32,
R33, 70_reset_and_hazards.md R139). -/

namespace Sys2Proof.Machine

/-- The invariant speaks of the core and the reset level only. -/
theorem Inv.of_sameCore {s t : State} (h : Inv s) (hcore : SameCore s t)
    (hreset : t.resetLine = true → s.resetLine = true) : Inv t := by
  obtain ⟨arch, _, _, _, _, _⟩ := t
  obtain rfl : arch = s.toArch := hcore
  exact { h with reset := fun hr => h.reset (hreset hr) }

/-- A core in its reset state meets the invariant, whether or not reset is asserted. -/
theorem inv_of_sameCore_reset {t : State} (h : SameCore State.reset t) : Inv t := by
  obtain ⟨arch, _, _, _, _, _⟩ := t
  obtain rfl : arch = State.reset.toArch := h
  exact { schedule := nofun, errcode := Nat.zero_le 3, outlen := Nat.zero_le _,
          output := fun k hk => absurd hk (Nat.not_lt_zero k), inbufForm := ⟨rfl, rfl⟩, outbufForm := ⟨rfl, rfl⟩,
          reset := fun _ => rfl }

/-- Settles O8: the reset state is its own core. -/
theorem resetMeetsInvariant : Obligations.ResetMeetsInvariant := inv_of_sameCore_reset rfl

/-! ### A completion. Reset is released throughout, so the last clause of the invariant says nothing. -/

section
variable {s : State} (h : Inv s) (hr : s.resetLine = false)
include h hr

theorem Inv.withOutput {v : List Byte} (hv : v.length ≤ Config.bufBytes) : Inv (withOutput v s) := by
  have hbounds := bufBytes_bounds
  have hlen : (BitVec.ofNat 32 v.length).toNat = v.length := by rw [BitVec.toNat_ofNat]; omega
  exact { h with
    errcode := Nat.zero_le 3
    outlen := hlen.trans_le hv
    output := fun k hk => by
      have hk : k < v.length := hlen ▸ hk
      simp [Machine.withOutput, Memory.byte?_ofBytes_zero, hk]
    outbufForm := ⟨Memory.wf_ofBytes v 0, Memory.within_ofBytes v 0 (by omega)⟩
    reset := fun hr' => nomatch hr.symm.trans hr' }

theorem Inv.withExpandedKey {w : Schedule} (hw : expand s.key = w) (chain state : Block) :
    Inv { s with rk := w, schedValid := true, chain := chain, state := state } :=
  { h with schedule := fun _ => hw.symm, reset := fun hr' => nomatch hr.symm.trans hr' }

theorem Inv.of_effect {i : Instr} {t : State} (he : Effect s i t) : Inv t := by
  have hreset {P : Prop} (hr' : s.resetLine = true) : P := nomatch hr.symm.trans hr'
  cases he with
  | code _ hc => exact { h with errcode := hc, reset := hreset }
  | clear => exact { h with errcode := Nat.zero_le 3, reset := hreset }
  | result _ b => exact { h with errcode := Nat.zero_le 3, reset := hreset }
  | schedule =>
    generalize hw : expand s.key = w
    exact { h with schedule := fun _ => hw.symm, errcode := Nat.zero_le 3, reset := hreset }
  | transform _ f => exact { h with errcode := Nat.zero_le 3, reset := hreset }
  | empty _ hc =>
    exact { h with errcode := hc, outlen := Nat.zero_le _, output := fun k hk => absurd hk (Nat.not_lt_zero k),
                   reset := hreset }
  | output _ hv => exact h.withOutput hr hv
  | cbc _ hv chain state => exact (h.withExpandedKey hr rfl chain state).withOutput hr hv

theorem Inv.goIdle : Inv (goIdle s) := { h with reset := fun hr' => nomatch hr.symm.trans hr' }

theorem Inv.complete {w : Word} {t : State} (ht : complete w s = .next t) : Inv t := by
  obtain ⟨u, rfl, ⟨i, -, hu⟩ | ⟨why, -, rfl⟩⟩ := complete_cases ht
  · have hur : u.resetLine = false := by rw [exec_frame hu]; exact hr
    exact (h.of_effect hr (exec_effect hu)).goIdle hur
  · have hu : Inv (raise eIllegal s) := h.of_effect hr (.code .nop (by decide))
    exact hu.goIdle hr

/-! ### The host's turn with reset released -/

theorem Inv.idleWrite (d : Word) (tgt : Target) : Inv (idleWrite Config.bufBytes d s tgt) := by
  have hreset {P : Prop} (hr' : s.resetLine = true) : P := nomatch hr.symm.trans hr'
  cases tgt <;> simp only [Machine.idleWrite]
  case key n =>
    generalize setWindowWord s.key n.val d = k
    exact { h with schedule := nofun, reset := hreset }
  case inbuf k =>
    by_cases hk : k + 4 ≤ Config.bufBytes
    · obtain ⟨hwf, hwithin⟩ := h.inbufForm
      rw [if_pos hk]
      exact { h with inbufForm := ⟨Memory.wf_putWord k d hwf, Memory.within_putWord d hk hwithin⟩, reset := hreset }
    · rwa [if_neg hk]
  case state n =>
    generalize setWindowWord s.state n.val d = b
    exact { h with reset := hreset }
  case cmd | opnd | keylen | inlen => exact { h with reset := hreset }
  all_goals exact h

theorem Inv.hostAccess : Inv (hostAccess Config.bufBytes s) := by
  obtain ⟨a, d, rest, -, ha⟩ | ⟨rest, -, ha⟩ | ⟨hcore, hlevel, -⟩ := hostAccess_cases Config.bufBytes s
  · have h' : Inv { s with host := rest } := h.of_sameCore rfl id
    rw [ha, busWrite]
    split
    · exact { h' with reset := fun hr' => nomatch hr.symm.trans hr' }
    · exact h'.idleWrite hr d (target a)
  · rw [ha]
    exact inv_of_sameCore_reset rfl
  · exact h.of_sameCore hcore hlevel.symm.trans

end

/-- Settles O9: under reset the core does not change, and with reset released the host's turn and the completion keep the
invariant. -/
theorem stepKeepsInvariant : Obligations.StepKeepsInvariant := by
  intro s t h ht
  obtain ⟨hr, hs⟩ | ⟨hidle, hs⟩ | ⟨w, hdue, hs⟩ | ⟨n, hbusy, hs⟩ := step_cases s <;> rw [hs] at ht
  · cases ht
    exact h.of_sameCore (hostAccessInReset_sameCore s) fun _ => hr
  · cases ht
    exact h.hostAccess hidle.released
  · exact h.complete hdue.released ht
  · cases ht
    exact (h.of_sameCore (t := { s with delay := n }) rfl id).hostAccess hbusy.released

end Sys2Proof.Machine
end

section
/-! SUPPORT. A host that waits after each command (70_reset_and_hazards.md R142), and from it O10. -/

namespace Sys2Proof.Machine

/-! ### Where CMD lies on the map -/

theorem targetAt_eq_cmd {n : Nat} (h : targetAt n = .cmd) : n = 0 := by
  unfold targetAt at h
  split at h
  · unfold controlTarget at h
    split at h
    · assumption
    · repeat' split at h
      all_goals cases h
  · unfold windowTarget bufferTarget at h
    repeat' split at h
    all_goals cases h

/-- CMD is reached at the word address 0 only (R40). -/
theorem wordAddress_of_target_cmd {a : Addr} (h : target a = .cmd) : wordAddress a = 0 :=
  BitVec.eq_of_toNat_eq (targetAt_eq_cmd h)

/-! ### The rule on a list of accesses -/

theorem waitsAfterCommands_tail {es : List HostEvent} (h : waitsAfterCommands es = true) :
    waitsAfterCommands es.tail = true := by
  rcases es with _ | ⟨e, rest⟩
  · rfl
  cases e with
  | write a d => exact ((Bool.and_eq_true ..).mp h).2
  | read a => exact h
  | wait => exact h
  | resetOn => exact h
  | resetOff => exact h

/-- What follows a write to CMD is nothing or a `wait`. -/
theorem wait_follows_command {a : Addr} {d : Word} {rest : List HostEvent}
    (h : waitsAfterCommands (.write a d :: rest) = true) (ha : wordAddress a = 0) :
    rest = [] ∨ ∃ rest', rest = .wait :: rest' := by
  rcases rest with _ | ⟨e, rest⟩
  · exact .inl rfl
  · have he : e = .wait := by simpa [waitsAfterCommands, ha] using ((Bool.and_eq_true ..).mp h).1
    exact .inr ⟨rest, he ▸ rfl⟩

/-! ### The rule along a step -/

theorem busy_eq_false_of_pending {t : State} (h : t.pending = none) : t.busy = false := by simp [State.busy, h]

theorem hostWaits_of_pending_none {t : State} (hp : t.pending = none) (hw : waitsAfterCommands t.host = true) :
    HostWaits t :=
  ⟨fun hb => absurd ((busy_eq_false_of_pending hp).symm.trans hb) Bool.false_ne_true, hw⟩

/-- The rule speaks of PENDING and the accesses still to come only. -/
theorem HostWaits.congr {s t : State} (h : HostWaits s) (hp : t.pending = s.pending) (hh : t.host = s.host) :
    HostWaits t := by
  refine ⟨fun hb => ?_, hh ▸ h.later⟩
  rw [State.busy, hp] at hb
  exact hh ▸ h.next hb

/-- With BUSY = 0 the host goes on to its next access, and a write to CMD is followed by a `wait`. -/
theorem HostWaits.hostAccess_idle (cap : Nat) {s : State} (h : HostWaits s) (hidle : Idle s) :
    HostWaits (hostAccess cap s) := by
  have hhost := hostAccess_idle_host cap hidle
  have hlater : waitsAfterCommands (hostAccess cap s).host = true := hhost ▸ waitsAfterCommands_tail h.later
  obtain hp | ⟨a, d, rest, hh, ha⟩ := hostAccess_idle_pending cap hidle
  · exact hostWaits_of_pending_none hp hlater
  · refine ⟨fun _ => ?_, hlater⟩
    rw [hhost, hh, List.tail_cons]
    exact wait_follows_command (hh ▸ h.later) (wordAddress_of_target_cmd ha)

/-- With BUSY = 0 the host's turn does not set OVERRUN (R29). -/
theorem hostAccess_idle_overrun (cap : Nat) {s : State} (hidle : Idle s) (ho : s.overrun = false) :
    (hostAccess cap s).overrun = false := by
  obtain h | ⟨hb, -⟩ | ⟨-, h, -⟩ := hostAccess_overrun cap s
  · exact h.trans ho
  · exact nomatch hidle.busy_eq.symm.trans hb
  · exact h

/-- With BUSY = 1 the host's turn is a poll of `wait`, or nothing: the core and the host's accesses stay. -/
theorem HostWaits.hostAccess_busy (cap : Nat) {s : State} (h : HostWaits s) (hb : s.busy = true) :
    SameCore s (hostAccess cap s) ∧ (hostAccess cap s).host = s.host := by
  obtain hh | ⟨rest, hh⟩ := h.next hb
  · rw [hostAccess_nil hh]; exact ⟨rfl, rfl⟩
  · rw [hostAccess_wait_busy hh hb]; exact ⟨rfl, rfl⟩

/-- Settles O10: with BUSY = 1 such a host polls or does nothing, so no bus write finds BUSY = 1. -/
theorem waitingHostNeverOverruns : Obligations.WaitingHostNeverOverruns := by
  intro s t hinv h ho ht
  obtain ⟨hr, hs⟩ | ⟨hidle, hs⟩ | ⟨w, hdue, hs⟩ | ⟨n, hbusy, hs⟩ := step_cases s <;> rw [hs] at ht
  · obtain rfl := Host.Outcome.next.inj ht
    have hcore : (hostAccessInReset s).toArch = State.reset.toArch :=
      (hostAccessInReset_sameCore s).trans (hinv.reset hr)
    have hlater := hostAccessInReset_host s ▸ waitsAfterCommands_tail h.later
    exact ⟨hostWaits_of_pending_none (congrArg Arch.pending hcore) hlater, congrArg Arch.overrun hcore⟩
  · obtain rfl := Host.Outcome.next.inj ht
    exact ⟨h.hostAccess_idle _ hidle, hostAccess_idle_overrun _ hidle ho⟩
  · refine ⟨hostWaits_of_pending_none (complete_pending ht) (complete_host ht ▸ h.later), ?_⟩
    obtain ho' | ⟨-, ho'⟩ := complete_overrun ht
    · exact ho'.trans ho
    · exact ho'
  · obtain rfl := Host.Outcome.next.inj ht
    have h' : HostWaits { s with delay := n } := h.congr rfl rfl
    obtain ⟨hcore, hhost⟩ := h'.hostAccess_busy Config.bufBytes hbusy.pending
    exact ⟨h'.congr (congrArg Arch.pending hcore) hhost, (congrArg Arch.overrun hcore).trans ho⟩

end Sys2Proof.Machine
end

section
/-! SUPPORT. What writes SCHED_VALID (10_state.md R22), and from it O12. -/

namespace Sys2Proof.Machine

/-- A KEY word lies at a word address from 0x100 to 0x11C of the map (R40). -/
theorem targetAt_eq_key {n : Nat} {m : Fin 8} (h : targetAt n = .key m) : 0x100 ≤ n ∧ n ≤ 0x11F := by
  unfold targetAt at h
  split at h
  · unfold controlTarget at h
    repeat' split at h
    all_goals cases h
  · next hlo =>
    split at h
    · unfold windowTarget at h
      split at h
      · next hhi => exact ⟨Nat.le_of_not_lt hlo, hhi⟩
      · repeat' split at h
        all_goals cases h
    · unfold bufferTarget at h
      repeat' split at h
      all_goals cases h

theorem wordAddress_of_target_key {a : Addr} {m : Fin 8} (h : target a = .key m) :
    0x100 ≤ (a &&& 0x3FFFC).toNat ∧ (a &&& 0x3FFFC).toNat ≤ 0x11C := by
  have haddr := targetAt_eq_key h
  have hmod := wordAddress_mod_four a
  simp only [wordAddress] at haddr hmod
  omega

/-- A bus write with BUSY = 0 leaves SCHED_VALID, unless its word is one of KEY's. -/
theorem idleWrite_schedValid (cap : Nat) (d : Word) (s : State) (tgt : Target) :
    (idleWrite cap d s tgt).schedValid = s.schedValid ∨
      ((idleWrite cap d s tgt).schedValid = false ∧ ∃ n, tgt = .key n) := by
  cases tgt
  case key n => exact .inr ⟨rfl, n, rfl⟩
  case inbuf k => refine .inl ?_; unfold idleWrite; dsimp only; split <;> rfl
  all_goals exact .inl rfl

/-- The host's turn leaves SCHED_VALID, unless it asserts reset or writes a KEY word with BUSY = 0; both clear it. -/
theorem hostAccess_schedValid (cap : Nat) (s : State) :
    (hostAccess cap s).schedValid = s.schedValid ∨
    ((hostAccess cap s).schedValid = false ∧
      (((hostAccess cap s).resetLine = true ∧ ∃ rest, s.host = .resetOn :: rest) ∨
       (s.busy = false ∧ ∃ a d rest, s.host = .write a d :: rest ∧ ∃ n, target a = .key n))) := by
  obtain ⟨a, d, rest, hh, ha⟩ | ⟨rest, hh, ha⟩ | ⟨hcore, -⟩ := hostAccess_cases cap s
  · rw [ha]
    cases hb : s.busy
    · rw [busWrite_idle (show State.busy { s with host := rest } = false from hb)]
      obtain hv | ⟨hv, hkey⟩ := idleWrite_schedValid cap d { s with host := rest } (target a)
      · exact .inl hv
      · exact .inr ⟨hv, .inr ⟨rfl, a, d, rest, hh, hkey⟩⟩
    · rw [busWrite_busy (show State.busy { s with host := rest } = true from hb)]
      exact .inl rfl
  · rw [ha]
    exact .inr ⟨rfl, .inl ⟨rfl, rest, hh⟩⟩
  · exact .inl (congrArg Arch.schedValid hcore)

/-- A completion leaves SCHED_VALID, or sets it, and then the word is that of KEYEXP, CBCENC or CBCDEC. -/
theorem complete_schedValid {w : Word} {s t : State} (h : complete w s = .next t) :
    t.schedValid = s.schedValid ∨
    (t.schedValid = true ∧ (w = 0x00000020 ∨ w = 0x00000050 ∨ w = 0x00000051)) := by
  obtain ⟨u, rfl, ⟨i, hi, hu⟩ | ⟨why, -, rfl⟩⟩ := complete_cases h
  · have hw := encode_of_decode hi
    rw [goIdle_schedValid]
    cases exec_effect hu with
    | schedule => exact .inr ⟨rfl, .inl hw.symm⟩
    | cbc hmem _ chain state =>
      refine .inr ⟨rfl, .inr ?_⟩
      have hi : i = .cbcenc ∨ i = .cbcdec := by simpa using hmem
      obtain rfl | rfl := hi
      · exact .inl hw.symm
      · exact .inr hw.symm
    | _ => exact .inl rfl
  · exact .inl rfl

/-- All that a step can do to SCHED_VALID (R22). -/
theorem step_schedValid {s t : State} (h : step s = .next t) :
    t.schedValid = s.schedValid ∨
    (t.schedValid = false ∧ s.resetLine = false ∧ t.resetLine = true ∧ ∃ rest, s.host = .resetOn :: rest) ∨
    (t.schedValid = false ∧ Idle s ∧ ∃ a d rest, s.host = .write a d :: rest ∧ ∃ n, target a = .key n) ∨
    (t.schedValid = true ∧
      ∃ w, Due w s ∧ t.pending = none ∧ (w = 0x00000020 ∨ w = 0x00000050 ∨ w = 0x00000051)) := by
  obtain ⟨-, hs⟩ | ⟨hidle, hs⟩ | ⟨w, hdue, hs⟩ | ⟨n, hbusy, hs⟩ := step_cases s <;> rw [hs] at h
  · cases h
    exact .inl (congrArg Arch.schedValid (hostAccessInReset_sameCore s))
  · cases h
    obtain hv | ⟨hv, ⟨hr, hw⟩ | ⟨-, hw⟩⟩ := hostAccess_schedValid Config.bufBytes s
    · exact .inl hv
    · exact .inr (.inl ⟨hv, hidle.released, hr, hw⟩)
    · exact .inr (.inr (.inl ⟨hv, hidle, hw⟩))
  · obtain hv | ⟨hv, hw⟩ := complete_schedValid h
    · exact .inl hv
    · exact .inr (.inr (.inr ⟨hv, w, hdue, complete_pending h, hw⟩))
  · cases h
    obtain hv | ⟨hv, ⟨hr, hw⟩ | ⟨hb, -⟩⟩ := hostAccess_schedValid Config.bufBytes { s with delay := n }
    · exact .inl hv
    · exact .inr (.inl ⟨hv, hbusy.released, hr, hw⟩)
    · exact nomatch hbusy.pending.symm.trans hb

/-- Settles O12: each change of SCHED_VALID singles out its cases of `step_schedValid`. -/
theorem schedValidHasFewWriters : Obligations.SchedValidHasFewWriters := by
  refine fun s t h => ⟨fun h1 h0 => ?falls, fun h0 h1 => ?rises⟩
  case falls =>
    obtain hv | ⟨-, hreset⟩ | ⟨-, hidle, a, d, rest, hh, n, ha⟩ | ⟨hv, -⟩ := step_schedValid h
    · simp [h0, h1] at hv
    · exact .inl hreset
    · exact .inr ⟨hidle, a, d, rest, hh, wordAddress_of_target_key ha⟩
    · simp [h0] at hv
  case rises =>
    obtain hv | ⟨hv, -⟩ | ⟨hv, -⟩ | ⟨-, hdue⟩ := step_schedValid h
    · simp [h0, h1] at hv
    · simp [h1] at hv
    · simp [h1] at hv
    · exact hdue

end Sys2Proof.Machine
end

section
/-! SUPPORT. Steps and runs of steps (30_encoding.md R64, R65, R70, 20_memory.md R38, R53, 70_reset_and_hazards.md R139),
and from them O4 to O7, O16, O27, O28 and O30. -/

namespace Sys2Proof.Machine

/-! ### A due command -/

/-- Settles O4: the step of a due word is its completion, and every meaning answers a next state. -/
theorem stepRunsTheDecodedCommand : Obligations.StepRunsTheDecodedCommand := by
  intro w i s hdue hi
  obtain ⟨t, ht⟩ := exec_answers i s
  refine ⟨t, ht, ?_⟩
  rw [step_due hdue, complete, hi]
  dsimp only
  rw [ht]
  rfl

/-- Settles O5: the host's turn always answers, and so does a completion. -/
theorem everyStepAnswersNext : Obligations.EveryStepAnswersNext := by
  intro s
  obtain ⟨-, hs⟩ | ⟨-, hs⟩ | ⟨w, -, hs⟩ | ⟨n, -, hs⟩ := step_cases s
  · exact ⟨_, hs⟩
  · exact ⟨_, hs⟩
  · exact hs ▸ complete_answers w s
  · exact ⟨_, hs⟩

/-- Settles O6, by induction on the turns the host still has: each turn abandons the command or leaves one turn less. -/
theorem pendingCommandEnds : Obligations.PendingCommandEnds := by
  intro s
  generalize hd : s.delay = d
  induction d generalizing s with
  | zero =>
    intro hr
    rcases hp : s.pending with _ | w
    · exact ⟨0, s, Nat.zero_le _, rfl, hp⟩
    · obtain ⟨t, ht⟩ := complete_answers w s
      exact ⟨1, t, le_rfl, run_succ_of_step 0 ((step_due ⟨hr, hp, hd⟩).trans ht), complete_pending ht⟩
  | succ n ih =>
    intro hr
    rcases hp : s.pending with _ | w
    · exact ⟨0, s, Nat.zero_le _, rfl, hp⟩
    · have hbusy : BusyBefore n s := ⟨hr, by simp [State.busy, hp], hd⟩
      have hstep := step_busyBefore hbusy
      obtain hnone | ⟨-, -, -, hr', hd'⟩ := hostAccess_busy (cap := Config.bufBytes)
        (show State.busy { s with delay := n } = true from hbusy.pending)
      · exact ⟨1, _, by omega, run_succ_of_step 0 hstep, hnone⟩
      · obtain ⟨m, t, hm, hrun, ht⟩ := ih _ hd' (hr'.trans hr)
        exact ⟨m + 1, t, by omega, (run_succ_of_step m hstep).trans hrun, ht⟩

/-- Settles O7: a step that leaves BUSY = 1 is a turn of the host, under reset or before completion. -/
theorem pendingInputsAreFrozen : Obligations.PendingInputsAreFrozen := by
  intro s t hs ht h
  have not_none (hp : t.pending = none) : False := Bool.false_ne_true ((busy_eq_false_of_pending hp).symm.trans ht)
  obtain ⟨-, hstep⟩ | ⟨hidle, -⟩ | ⟨w, -, hstep⟩ | ⟨n, hbusy, hstep⟩ := step_cases s
  · obtain rfl := Host.Outcome.next.inj (hstep.symm.trans h)
    have hcore := hostAccessInReset_sameCore s
    rw [hostAccessInReset_overrun]
    exact ⟨hcore, id⟩
  · exact absurd (hidle.busy_eq.symm.trans hs) Bool.false_ne_true
  · exact (not_none (complete_pending (hstep.symm.trans h))).elim
  · obtain rfl := Host.Outcome.next.inj (hstep.symm.trans h)
    obtain hnone | ⟨b, hcore, hb, -⟩ := hostAccess_busy (cap := Config.bufBytes)
      (show State.busy { s with delay := n } = true from hbusy.pending)
    · exact (not_none hnone).elim
    · have ho : (hostAccess Config.bufBytes { s with delay := n }).overrun = b := congrArg Arch.overrun hcore
      rw [ho]
      exact ⟨hcore, hb⟩

/-! ### A racing write -/

/-- A completion does not depend on what the host still does. -/
theorem complete_withHost {w : Word} {s t : State} (es : List HostEvent) (h : complete w s = .next t) :
    complete w { s with host := es } = .next { t with host := es } := by
  obtain ⟨u, rfl, ⟨i, hi, hu⟩ | ⟨why, hwhy, rfl⟩⟩ := complete_cases h
  · rw [complete, hi]
    dsimp only
    rw [exec_withHost es hu]
    rfl
  · rw [complete_of_illegal hwhy]
    rfl

/-- Settles O16: the number of turns drawn at acceptance decides which of the two comes second, and the completion is the
same whether or not a write is still to come. -/
theorem racingWriteIsLateOrDropped : Obligations.RacingWriteIsLateOrDropped := by
  intro s w a d hidle hh
  have hfirst (es : List HostEvent) :
      step { s with host := .write 0x00000 w :: es } = .next (accept w { s with host := es }) :=
    step_idle_write_cmd ⟨hidle.released, hidle.noCommand⟩ rfl rfl
  have hs : step s = .next (accept w { s with host := [.write a d] }) := step_idle_write_cmd hidle hh rfl
  rcases hd : Config.turnsWhileBusy s.draws with _ | n
  · obtain ⟨v, hv⟩ := complete_answers w (accept w { s with host := [.write a d] })
    obtain ⟨t, ht⟩ := everyStepAnswersNext v
    have hdue (es : List HostEvent) : Due w (accept w { s with host := es }) := ⟨hidle.released, rfl, hd⟩
    have hrest : v.host = [.write a d] := complete_host hv
    have hpending : v.pending = none := complete_pending hv
    refine .inl ⟨t, { v with host := [] }, ?_, ?_, hpending, ?_⟩
    · rw [run_succ_of_step 2 hs, run_succ_of_step 1 ((step_due (hdue _)).trans hv), run_succ_of_step 0 ht, run_zero]
    · have hv' := complete_withHost [] hv
      rw [run_succ_of_step 1 (hfirst []), run_succ_of_step 0 ((step_due (hdue [])).trans hv'), run_zero]
    · rw [← ht, ← hrest]
  · have hbusy : BusyBefore n (accept w { s with host := [.write a d] }) := ⟨hidle.released, rfl, hd⟩
    refine .inr ⟨{ accept w { s with host := [] } with overrun := true, delay := n },
      accept w { s with host := [] }, ?_, ?_, rfl, rfl⟩
    · rw [run_succ_of_step 1 hs, run_succ_of_step 0 (step_busy_write hbusy rfl), run_zero]
      rfl
    · rw [run_succ_of_step 0 (hfirst []), run_zero]

/-! ### Address bits [1:0] -/

theorem busWrite_wordAddress (cap : Nat) (a : Addr) (d : Word) (s : State) :
    busWrite cap (a &&& 0x3FFFC) d s = busWrite cap a d s := by
  have h : target (a &&& 0x3FFFC) = target a := target_wordAddress a
  rw [busWrite, h, busWrite]

theorem busRead_wordAddress (cap : Nat) (a : Addr) (s : State) :
    busRead cap (a &&& 0x3FFFC) s = busRead cap a s := by
  have h : target (a &&& 0x3FFFC) = target a := target_wordAddress a
  rw [busRead, readWord, h, busRead, readWord]

/-- When it is the host's turn, two accesses that do the same make the same step. -/
theorem step_eq_of_same_access {s : State} {es fs : List HostEvent}
    (hturn : s.resetLine = true ∨ s.pending = none ∨ s.delay ≠ 0)
    (hreset : hostAccessInReset { s with host := es } = hostAccessInReset { s with host := fs })
    (haccess : ∀ n, hostAccess Config.bufBytes { s with host := es, delay := n } =
      hostAccess Config.bufBytes { s with host := fs, delay := n }) :
    step { s with host := es } = step { s with host := fs } := by
  obtain ⟨hr, -⟩ | ⟨hidle, -⟩ | ⟨w, hdue, -⟩ | ⟨n, hbusy, -⟩ := step_cases s
  · rw [step_inReset (s := { s with host := es }) hr, step_inReset (s := { s with host := fs }) hr, hreset]
  · have hidle' (hs : List HostEvent) : Idle { s with host := hs } := ⟨hidle.released, hidle.noCommand⟩
    rw [step_idle (hidle' es), step_idle (hidle' fs)]
    exact congrArg _ (haccess s.delay)
  · obtain h | h | h := hturn
    · exact nomatch hdue.released.symm.trans h
    · exact nomatch hdue.pending.symm.trans h
    · exact absurd hdue.turn h
  · have hbusy' (hs : List HostEvent) : BusyBefore n { s with host := hs } :=
      ⟨hbusy.released, hbusy.pending, hbusy.delay⟩
    rw [step_busyBefore (hbusy' es), step_busyBefore (hbusy' fs)]
    exact congrArg _ (haccess n)

/-- Settles O27: a bus access looks at its target only, and the map masks the address. -/
theorem lowAddressBitsAreIgnored : Obligations.LowAddressBitsAreIgnored := by
  refine fun s a d rest hturn => ⟨step_eq_of_same_access hturn rfl fun n => ?write,
    step_eq_of_same_access hturn rfl fun n => ?read⟩
  case write => rw [hostAccess_write rfl, hostAccess_write rfl, busWrite_wordAddress]
  case read => rw [hostAccess_read rfl, hostAccess_read rfl, busRead_wordAddress]

/-! ### Polling -/

/-- STATUS is exact, whether or not a command is pending (R50). -/
theorem readWord_statusAddr (cap : Nat) (s : State) : readWord cap s statusAddr = statusWord s := by
  cases hb : s.busy
  · rw [readWord, hb]; rfl
  · rw [readWord_busy hb]; rfl

theorem busRead_statusAddr (cap : Nat) (s : State) :
    busRead cap statusAddr s = { s with rdata := some (statusWord s), draws := s.draws + 4 } := by
  rw [busRead, readWord_statusAddr]

/-- Settles O28: `wait` is a read of STATUS, and it stays the host's next line exactly while BUSY = 1. -/
theorem waitPollsUntilIdle : Obligations.WaitPollsUntilIdle := by
  refine fun s rest hh => ⟨fun n hbusy => ?busy, fun hidle => ?idle⟩
  case busy =>
    have hb : State.busy { s with delay := n } = true := hbusy.pending
    rw [step_busyBefore hbusy, hostAccess_wait_busy (s := { s with delay := n }) hh hb, busRead_statusAddr]
    rfl
  case idle =>
    rw [step_idle hidle, hostAccess_wait_idle hh hidle.busy_eq, busRead_statusAddr]
    rfl

/-! ### Reset -/

/-- The step that asserts reset, whether or not a command is pending (R139). -/
theorem step_resetOn {s : State} {rest : List HostEvent} (hr : s.resetLine = false) (hh : s.host = .resetOn :: rest)
    (hturn : s.pending = none ∨ s.delay ≠ 0) : step s = .next (assertReset { s with host := rest }) := by
  obtain ⟨hr', -⟩ | ⟨-, hs⟩ | ⟨w, hdue, -⟩ | ⟨n, -, hs⟩ := step_cases s
  · exact nomatch hr.symm.trans hr'
  · rw [hs, hostAccess_resetOn hh]
  · obtain h | h := hturn
    · exact nomatch hdue.pending.symm.trans h
    · exact absurd hdue.turn h
  · rw [hs, hostAccess_resetOn (s := { s with delay := n }) hh]
    rfl

/-- Settles O30: asserting reset is one step, and under reset each event of the host has its one effect. -/
theorem resetInputHoldsTheResetState : Obligations.ResetInputHoldsTheResetState := by
  refine fun s rest => ⟨fun hr hh hturn => ⟨_, step_resetOn hr hh hturn, rfl, rfl, rfl⟩, fun hr => ?_⟩
  rw [step_inReset hr, hostAccessInReset]
  exact ⟨fun a d hh => by rw [hh], fun a hh => by rw [hh], fun hh => by rw [hh], fun hh => by rw [hh],
    fun hh => by rw [hh], fun hh => by rw [hh]⟩

end Sys2Proof.Machine
end

section
/-! SUPPORT. Bus writes with BUSY = 0 (20_memory.md R41 to R48), and from them O18 to O22. -/

namespace Sys2Proof.Machine

/-! ### The control registers of the map (R40) -/

theorem target_of_word {a : Addr} {n : Nat} (h : (a &&& 0x3FFFC).toNat = n) : target a = targetAt n :=
  congrArg targetAt h

/-- Settles O18: each register stands at one word address of the map. -/
theorem registerWritesTakeEffect : Obligations.RegisterWritesTakeEffect := by
  intro s a d rest hidle hh
  rw [step_idle_write hidle hh, target, wordAddress]
  refine ⟨fun ha => ?_, fun ha => ?_, fun ha => ?_⟩ <;> rw [ha] <;> rfl

/-! ### The windows -/

/-- One word of a window after a write: the four bytes from `4n` on are those of the bus word (R41). -/
theorem getElem_setWindowWord_of_offset {len o : Nat} (v : Vector Byte len) (d : Word) (ho : o % 4 = 0) (i : Nat)
    (hi : i < len) :
    (setWindowWord v (o / 4) d)[i] = if o ≤ i ∧ i < o + 4 then d.extractLsb' (8 * (i - o)) 8 else v[i] := by
  rw [getElem_setWindowWord]
  by_cases h : o ≤ i ∧ i < o + 4
  · have hword : i / 4 = o / 4 := by omega
    have hbyte : i % 4 = i - o := by omega
    rw [if_pos h, if_pos hword, hbyte, busByte]
  · have hword : ¬ i / 4 = o / 4 := by omega
    rw [if_neg h, if_neg hword]

/-- A word address at offset `o` of a window at a multiple of 4 has an offset that is one too (R38). -/
theorem offset_mod_four {a : Addr} {base o : Nat} (ha : (a &&& 0x3FFFC).toNat = base + o) (hb : base % 4 = 0) :
    o % 4 = 0 := by
  have h := wordAddress_mod_four a
  rw [wordAddress] at h
  omega

/-- Settles O19: the map sends offset `o` of the KEY window to word `o / 4`. -/
theorem keyWriteClearsSchedValid : Obligations.KeyWriteClearsSchedValid := by
  intro s a d rest o hidle hh ha ho
  have hmod := offset_mod_four ha rfl
  have hword : (Fin.ofNat 8 (o / 4)).val = o / 4 := Nat.mod_eq_of_lt (by omega)
  have htarget : target a = .key (Fin.ofNat 8 (o / 4)) := targetAt_key ha ho
  refine ⟨setWindowWord s.key (o / 4) d, ?_, fun i => getElem_setWindowWord_of_offset s.key d hmod i i.isLt⟩
  rw [step_idle_write_key hidle hh htarget, hword]

/-- Settles O20: the map sends offset `o` of the STATE window to word `o / 4`. -/
theorem stateWriteReplacesOneWord : Obligations.StateWriteReplacesOneWord := by
  intro s a d rest o hidle hh ha ho
  have hmod := offset_mod_four ha rfl
  have hword : (Fin.ofNat 4 (o / 4)).val = o / 4 := Nat.mod_eq_of_lt (by omega)
  have htarget : target a = .state (Fin.ofNat 4 (o / 4)) := targetAt_state ha ho
  refine ⟨setWindowWord s.state (o / 4) d, ?_, fun i => getElem_setWindowWord_of_offset s.state d hmod i i.isLt⟩
  rw [step_idle_write hidle hh, htarget, idleWrite, hword, withState]

/-- Settles O21: a word within the capacity goes to the RAM, and one beyond it is ignored. -/
theorem inbufWriteStoresOneWord : Obligations.InbufWriteStoresOneWord := by
  intro s a d rest o hidle hh ha ho
  have htarget : target a = .inbuf o := targetAt_inbuf ha ho
  rw [step_idle_write hidle hh, htarget, idleWrite]
  refine ⟨fun hcap => ⟨s.inbuf.putWord o d, ?_, fun k => Memory.byte?_putWord s.inbuf o k d⟩, fun hcap => ?_⟩
  · rw [if_pos hcap]
  · rw [if_neg (Nat.not_le.2 hcap)]

/-! ### Words that ignore writes -/

/-- The read-only and the reserved words of the map (R45 to R47). -/
def Target.ignoresWrites : Target → Prop
  | .status | .outlen | .result | .chain _ | .rk _ | .outbuf _ | .reserved => True
  | .cmd | .keylen | .inlen | .opnd | .key _ | .state _ | .inbuf _ => False

theorem idleWrite_of_ignoresWrites {tgt : Target} (h : tgt.ignoresWrites) (cap : Nat) (d : Word) (s : State) :
    idleWrite cap d s tgt = s := by
  cases tgt with
  | status | outlen | result | chain _ | rk _ | outbuf _ | reserved => rfl
  | cmd | keylen | inlen | opnd | key _ | state _ | inbuf _ => exact h.elim

/-- The regions of the map between and above the writable words, part by part (R40). -/
theorem targetAt_ignoresWrites {n : Nat} (hmod : n % 4 = 0)
    (h : n = 0x00004 ∨ n = 0x00010 ∨ (0x00018 ≤ n ∧ n < 0x00100) ∨ (0x00130 ≤ n ∧ n < 0x10000) ∨ 0x20000 ≤ n) :
    (targetAt n).ignoresWrites := by
  by_cases hreserved : (0x1C ≤ n ∧ n < 0x100) ∨ (0x140 ≤ n ∧ n < 0x200) ∨ (0x2F0 ≤ n ∧ n < 0x10000) ∨ 0x30000 ≤ n
  · rw [targetAt_reserved hreserved]
    trivial
  have hregion : n = 4 ∨ n = 0x10 ∨ n = 0x18 ∨ (0x130 ≤ n ∧ n < 0x140) ∨ (0x200 ≤ n ∧ n < 0x2F0) ∨
      (0x20000 ≤ n ∧ n < 0x30000) := by omega
  obtain rfl | rfl | rfl | ⟨hlo, hhi⟩ | ⟨hlo, hhi⟩ | ⟨hlo, hhi⟩ := hregion
  · trivial
  · trivial
  · trivial
  · rw [targetAt_chain (Nat.add_sub_cancel' hlo).symm (by omega)]
    trivial
  · rw [targetAt_rk (Nat.add_sub_cancel' hlo).symm (by omega)]
    trivial
  · rw [targetAt_outbuf (Nat.add_sub_cancel' hlo).symm (by omega)]
    trivial

/-- Settles O22: the listed addresses are those of the words that ignore writes. -/
theorem readOnlyWritesAreIgnored : Obligations.ReadOnlyWritesAreIgnored := by
  intro s a d rest hidle hh ha
  rw [step_idle_write hidle hh]
  exact congrArg _ (idleWrite_of_ignoresWrites (targetAt_ignoresWrites (wordAddress_mod_four a) ha) _ _ _)

end Sys2Proof.Machine
end

section
/-! SUPPORT. Bus reads with BUSY = 0 (10_state.md R24 to R27, 20_memory.md R40 to R47), and from them O11 and O23 to
O26. -/

namespace Sys2Proof.Machine

/-! ### The fields of the status and operand words -/

theorem getLsbD_flagBit (b : Bool) (n : Nat) {i : Nat} (hi : i < 32) :
    (flagBit b n).getLsbD i = (b && decide (i = n)) := by
  have heq : i = n ↔ ¬ i < n ∧ i - n = 0 := by omega
  simp only [flagBit, BitVec.getLsbD_shiftLeft, BitVec.getLsbD_setWidth, BitVec.getLsbD_ofBool, heq,
    Bool.decide_and, decide_not]
  cases b <;> simp [hi, Nat.lt_of_le_of_lt (Nat.sub_le i n) hi]

/-- STATUS bit by bit: ERRCODE from bit 4 on, and the three flags at bits 2, 1 and 0 (R27). -/
theorem getLsbD_statusWord (s : State) {i : Nat} (hi : i < 32) :
    (statusWord s).getLsbD i =
      ((!decide (i < 4) && s.errcode.getLsbD (i - 4)) || (s.overrun && decide (i = 2)) ||
        (s.schedValid && decide (i = 1)) || (s.busy && decide (i = 0))) := by
  simp only [statusWord, BitVec.getLsbD_or, getLsbD_flagBit _ _ hi, BitVec.getLsbD_shiftLeft, BitVec.getLsbD_setWidth,
    hi, Nat.lt_of_le_of_lt (Nat.sub_le i 4) hi, decide_true, Bool.true_and]

/-- Settles O11: below bit 4 ERRCODE has no bits, from bit 4 on the flags have none, and from bit 8 on neither. -/
theorem statusWordHoldsItsFields : Obligations.StatusWordHoldsItsFields := by
  refine fun s => ⟨?bit0, ?bit1, ?bit2, ?bit3, ?errcode, ?high⟩
  case errcode =>
    ext i hi
    rw [BitVec.getElem_extractLsb', getLsbD_statusWord s (by omega)]
    simp [BitVec.getLsbD_eq_getElem hi, show 4 + i ≠ 2 by omega, show 4 + i ≠ 1 by omega]
  case high =>
    ext i hi
    rw [BitVec.getElem_extractLsb', getLsbD_statusWord s (by omega),
      BitVec.getLsbD_of_ge s.errcode (8 + i - 4) (by omega)]
    simp [show 8 + i ≠ 2 by omega, show 8 + i ≠ 1 by omega]
  all_goals
    rw [getLsbD_statusWord s (by omega)]
    simp [State.busy]

theorem extractLsb'_opndWord (s : State) :
    (opndWord s).extractLsb' 0 8 = s.opndA ∧ (opndWord s).extractLsb' 8 8 = s.opndB ∧
      (opndWord s).extractLsb' 16 16 = 0 := by
  refine ⟨?_, ?_, ?_⟩ <;>
  · ext i hi
    interval_cases i <;> simp [opndWord, BitVec.getLsbD_eq_getElem]

theorem extractLsb'_resultWord (s : State) :
    (resultWord s).extractLsb' 0 8 = s.result ∧ (resultWord s).extractLsb' 8 24 = 0 := by
  refine ⟨?_, ?_⟩ <;>
  · ext i hi
    interval_cases i <;> simp [resultWord, BitVec.getLsbD_eq_getElem]

/-- Settles O23: each address has its target, and each target its word. -/
theorem registerReadsGiveContents : Obligations.RegisterReadsGiveContents := by
  intro s a rest hidle hh
  refine ⟨_, step_idle_read hidle hh, ?cmd, ?status, ?keylen, ?inlen, ?outlen, ?opnd, ?result, ?reserved⟩ <;> intro ha
  case opnd => rw [target_of_word ha]; exact extractLsb'_opndWord s
  case result => rw [target_of_word ha]; exact extractLsb'_resultWord s
  case reserved => rw [target_of_word rfl, targetAt_reserved ha]; rfl
  all_goals rw [target_of_word ha]; rfl

/-! ### The windows -/

/-- Byte `j` of window word `n` is byte `4n + j` of the window (R41). -/
theorem extractLsb'_windowWord {len : Nat} (v : Vector Byte len) {n j i : Nat} (h : 4 * n + 3 < len) (hj : j < 4)
    (hi : i < len) (he : 4 * n + j = i) : (windowWord v n h).extractLsb' (8 * j) 8 = v[i] := by
  subst he
  exact busByte_windowWord v n h j hj

/-- Byte `i` of a window at a multiple of 4 is byte `i mod 4` of its word `i div 4`. -/
theorem window_word_and_byte {a : Addr} {base i : Nat} {j : Fin 4} (ha : (a &&& 0x3FFFC).toNat + j.val = base + i)
    (hb : base % 4 = 0) : (a &&& 0x3FFFC).toNat = base + 4 * (i / 4) ∧ j.val = i % 4 := by
  have h := wordAddress_mod_four a
  rw [wordAddress] at h
  omega

/-- Settles O24: the map sends byte `i` of each window to window word `i / 4`. -/
theorem windowReadsAreLittleEndian : Obligations.WindowReadsAreLittleEndian := by
  intro s a rest j hidle hh
  refine ⟨_, step_idle_read hidle hh, ?key, ?state, ?chain, ?rk⟩ <;> intro i hi <;>
    obtain ⟨ho, hj⟩ := window_word_and_byte hi rfl
  case key =>
    rw [target_of_word ho, targetAt_key rfl (by omega)]
    exact extractLsb'_windowWord s.key _ j.isLt i.isLt (by rw [Fin.val_ofNat]; omega)
  case state =>
    rw [target_of_word ho, targetAt_state rfl (by omega)]
    exact extractLsb'_windowWord s.state _ j.isLt i.isLt (by rw [Fin.val_ofNat]; omega)
  case chain =>
    rw [target_of_word ho, targetAt_chain rfl (by omega)]
    exact extractLsb'_windowWord s.chain _ j.isLt i.isLt (by rw [Fin.val_ofNat]; omega)
  case rk =>
    rw [target_of_word ho, targetAt_rk rfl (by omega)]
    exact extractLsb'_windowWord s.rk _ j.isLt i.isLt (by rw [Fin.val_ofNat]; omega)

/-! ### The buffers -/

/-- Byte `j` of a packed word is the `j`-th byte packed (R41). -/
theorem extractLsb'_packWord (f : Nat → Byte) (j : Fin 4) :
    (packWord (f 0) (f 1) (f 2) (f 3)).extractLsb' (8 * j.val) 8 = f j := by
  obtain ⟨h0, h1, h2, h3⟩ := busByte_packWord (f 0) (f 1) (f 2) (f 3)
  match j with
  | 0 => exact h0
  | 1 => exact h1
  | 2 => exact h2
  | 3 => exact h3

theorem outputByte_of_byte? {s : State} {k : Nat} {b : Byte} (hk : k < s.outlen.toNat)
    (hb : s.outbuf.byte? k = some b) (n : Nat) : outputByte s k n = b := by
  rw [outputByte, if_pos hk, Memory.draw_of_byte? hb]

/-- Settles O25: a word within the capacity is packed from its four bytes, and a specified byte is not drawn. -/
theorem bufferReadsGiveSpecifiedBytes : Obligations.BufferReadsGiveSpecifiedBytes := by
  intro s a rest o hidle hh ho
  refine ⟨_, step_idle_read hidle hh, ?inbuf, ?outbuf⟩ <;> intro ha
  case inbuf =>
    rw [target_of_word ha, targetAt_inbuf rfl ho, idleReadWord]
    refine ⟨fun hcap => if_neg (Nat.not_le.2 hcap), fun hcap j b hb => ?_⟩
    rw [if_pos hcap]
    exact (extractLsb'_packWord (fun i => s.inbuf.draw (o + i) (s.draws + i)) j).trans (Memory.draw_of_byte? hb _)
  case outbuf =>
    rw [target_of_word ha, targetAt_outbuf rfl ho, idleReadWord]
    refine ⟨fun hcap => if_neg (Nat.not_le.2 hcap), fun hcap j b hk hb => ?_⟩
    rw [if_pos hcap]
    exact (extractLsb'_packWord (fun i => outputByte s (o + i) (s.draws + i)) j).trans (outputByte_of_byte? hk hb _)

/-! ### Reading back what was written -/

theorem windowWord_setWindowWord {len : Nat} (v : Vector Byte len) (n : Nat) (d : Word) (h : 4 * n + 3 < len) :
    windowWord (setWindowWord v n d) n h = d := by
  have hbyte (j : Nat) (hj : j < 4) : (setWindowWord v n d)[4 * n + j] = busByte d j := by
    rw [getElem_setWindowWord, if_pos (by omega), show (4 * n + j) % 4 = j by omega]
  have hfirst : (setWindowWord v n d)[4 * n] = busByte d 0 := hbyte 0 (by decide)
  rw [windowWord, hfirst, hbyte 1 (by decide), hbyte 2 (by decide), hbyte 3 (by decide), packWord_busByte]

/-- A word of the RAM after it was written is read without a draw. -/
theorem packWord_draw_putWord (m : Memory) (k n : Nat) (d : Word) :
    packWord ((m.putWord k d).draw k n) ((m.putWord k d).draw (k + 1) (n + 1)) ((m.putWord k d).draw (k + 2) (n + 2))
      ((m.putWord k d).draw (k + 3) (n + 3)) = d := by
  have hbyte (j : Nat) (hj : j < 4) (n : Nat) : (m.putWord k d).draw (k + j) n = busByte d j := by
    refine Memory.draw_of_byte? ?_ n
    rw [Memory.byte?_putWord, if_pos (by omega), Nat.add_sub_cancel_left]
  have hfirst : (m.putWord k d).draw k n = busByte d 0 := hbyte 0 (by decide) n
  rw [hfirst, hbyte 1 (by decide), hbyte 2 (by decide), hbyte 3 (by decide), packWord_busByte]

/-- The words of the map that a host writes and reads back whole (R41, R44). -/
inductive Target.ReadsBack (cap : Nat) : Target → Prop where
  | keylen : ReadsBack cap .keylen
  | inlen : ReadsBack cap .inlen
  | key (n : Fin 8) : ReadsBack cap (.key n)
  | state (n : Fin 4) : ReadsBack cap (.state n)
  | inbuf {k : Nat} (h : k + 4 ≤ cap) : ReadsBack cap (.inbuf k)

theorem idleReadWord_idleWrite {cap : Nat} {tgt : Target} (h : tgt.ReadsBack cap) (d : Word) (s : State) :
    idleReadWord cap (idleWrite cap d s tgt) tgt = d := by
  cases h with
  | keylen => rfl
  | inlen => rfl
  | key n => exact windowWord_setWindowWord s.key n.val d _
  | state n => exact windowWord_setWindowWord s.state n.val d _
  | inbuf h =>
    rw [idleWrite, idleReadWord, if_pos h, if_pos h]
    exact packWord_draw_putWord s.inbuf _ s.draws d

theorem Target.ReadsBack.ne_cmd {cap : Nat} {tgt : Target} (h : tgt.ReadsBack cap) : tgt ≠ .cmd := by
  cases h <;> nofun

/-- The addresses of the words that read back, region by region (R40). -/
theorem targetAt_readsBack {n : Nat} (h : n = 0x00008 ∨ n = 0x0000C ∨ (0x00100 ≤ n ∧ n < 0x00130) ∨
      (0x10000 ≤ n ∧ n + 4 ≤ 0x10000 + Config.bufBytes)) : (targetAt n).ReadsBack Config.bufBytes := by
  have hbounds := bufBytes_bounds
  have hregion : n = 8 ∨ n = 12 ∨ (0x100 ≤ n ∧ n < 0x120) ∨ (0x120 ≤ n ∧ n < 0x130) ∨
      (0x10000 ≤ n ∧ n + 4 ≤ 0x10000 + Config.bufBytes) := by omega
  obtain rfl | rfl | ⟨hlo, hhi⟩ | ⟨hlo, hhi⟩ | ⟨hlo, hhi⟩ := hregion
  · exact .keylen
  · exact .inlen
  · rw [targetAt_key (Nat.add_sub_cancel' hlo).symm (by omega)]
    exact .key _
  · rw [targetAt_state (Nat.add_sub_cancel' hlo).symm (by omega)]
    exact .state _
  · rw [targetAt_inbuf (Nat.add_sub_cancel' hlo).symm (by omega)]
    exact .inbuf (by omega)

/-- A bus write elsewhere than to CMD leaves the core idle (R64). -/
theorem idle_idleWrite {cap : Nat} {d : Word} {s : State} {tgt : Target} (h : Idle s) (htgt : tgt ≠ .cmd) :
    Idle (idleWrite cap d s tgt) :=
  ⟨by rw [idleWrite_frame]; exact h.released, (idleWrite_pending htgt).trans h.noCommand⟩

/-- Settles O26: the write leaves the core idle, and the read finds the word in its place. -/
theorem writtenWordReadsBack : Obligations.WrittenWordReadsBack := by
  intro s a d hidle hh ha
  have hback : (target a).ReadsBack Config.bufBytes := targetAt_readsBack ha
  have hidle' := idle_idleWrite (cap := Config.bufBytes) (d := d) (s := { s with host := [.read a] })
    ⟨hidle.released, hidle.noCommand⟩ hback.ne_cmd
  have hhost : (idleWrite Config.bufBytes d { s with host := [.read a] } (target a)).host = [.read a] := by
    rw [idleWrite_frame]
  exact ⟨_, ((run_succ_of_step 1 (step_idle_write hidle hh)).trans
    (run_succ_of_step 0 (step_idle_read hidle' hhost))).trans (run_zero _),
    congrArg some (idleReadWord_idleWrite hback d _)⟩

end Sys2Proof.Machine
end

section
/-! SUPPORT. The control, byte and round commands and KEYEXP (46_control.md, 40_gf_multiplier.md,
41_substitution_tables.md, 42_key_schedule.md, 43_round_transformation.md), and from the laws of their functions O33, O39, O40 and O42 to O45. -/

namespace Sys2Proof.Machine

/-- Settles O33: the two meanings name ERRCODE, and CLRSTAT's OVERRUN too. -/
theorem controlCommandsWriteStatusOnly : Obligations.ControlCommandsWriteStatusOnly := fun _ => ⟨rfl, rfl⟩

/-- Settles O39: each meaning names RESULT and ERRCODE. -/
theorem byteCommandsWriteResult : Obligations.ByteCommandsWriteResult := fun _ => ⟨rfl, rfl, rfl, rfl⟩

/-- All that KEYEXP writes (R86). -/
theorem succeed_withSchedule_eq (w : Schedule) (s : State) :
    succeed (withSchedule w s) = { s with rk := w, schedValid := true, errcode := 0 } := rfl

/-- Settles O40: KEYEXP's meaning reads KEY and no other register. -/
theorem keyexpFillsTheSchedule : Obligations.KeyexpFillsTheSchedule := 
  fun s => congrArg Host.Outcome.next (succeed_withSchedule_eq (expand s.key) s)

/-- All that a state command writes (R96 to R102). -/
theorem transformState_eq (f : Block → Block) (s : State) :
    transformState f s = { s with state := f s.state, errcode := 0 } := rfl

/-- The answer of a command whose meaning is to transform STATE by `f`. -/
theorem exec_eq_of_transform {i : Instr} {f : Block → Block} {s : State} (h : exec i s = .next (transformState f s)) :
    exec i s = .next { s with state := f s.state, errcode := 0 } :=
  h.trans (congrArg _ (transformState_eq f s))

/-- Settles O42: both substitutions work lane by lane. -/
theorem substituteCommandsActOnEachLane : Obligations.SubstituteCommandsActOnEachLane :=
  fun s => ⟨⟨subBytes s.state, exec_eq_of_transform rfl, fun i => getElem_subBytes s.state i i.isLt⟩,
    invSubBytes s.state, exec_eq_of_transform rfl, fun i => getElem_invSubBytes s.state i i.isLt⟩

/-- Settles O43: row `r` moves by `r` columns, and back: column `c + r` of the result is column `c + r - r`. -/
theorem shiftCommandsRotateRows : Obligations.ShiftCommandsRotateRows := by
  refine fun s => ⟨⟨shiftRows s.state, exec_eq_of_transform rfl, fun r c => ?left⟩,
    invShiftRows s.state, exec_eq_of_transform rfl, fun r c => ?right⟩
  case left => simpa only [columnByte, Fin.val_add] using columnByte_shiftRows s.state c r
  case right =>
    have h := columnByte_invShiftRows s.state (c + r) r
    rw [add_sub_cancel_right] at h
    simpa only [columnByte, Fin.val_add] using h

theorem columnByte_mixColumns (s : Block) (c r : Fin 4) : columnByte (mixColumns s) c r = mixRow s c r := by
  simp only [columnByte, getElem_mixColumns, index_div_four, index_mod_four, Fin.eta]

theorem columnByte_invMixColumns (s : Block) (c r : Fin 4) : columnByte (invMixColumns s) c r = invMixRow s c r := by
  simp only [columnByte, getElem_invMixColumns, index_div_four, index_mod_four, Fin.eta]

/-- Settles O44: the rows of the two products, written from the lane of the first coefficient on, start at lane 0 in the
statement. -/
theorem mixCommandsMultiplyColumns : Obligations.MixCommandsMultiplyColumns := by
  refine fun s => ⟨⟨mixColumns s.state, exec_eq_of_transform rfl, fun c => ?mix⟩,
    invMixColumns s.state, exec_eq_of_transform rfl, fun c => ?inv⟩
  case mix =>
    refine ⟨columnByte_mixColumns s.state c 0, (columnByte_mixColumns s.state c 1).trans ?_,
      (columnByte_mixColumns s.state c 2).trans ?_, (columnByte_mixColumns s.state c 3).trans ?_⟩ <;>
    · simp only [mixRow, columnByte, Fin.reduceAdd]
      ac_rfl
  case inv =>
    refine ⟨columnByte_invMixColumns s.state c 0, (columnByte_invMixColumns s.state c 1).trans ?_,
      (columnByte_invMixColumns s.state c 2).trans ?_, (columnByte_invMixColumns s.state c 3).trans ?_⟩ <;>
    · simp only [invMixRow, columnByte, Fin.reduceAdd]
      ac_rfl

/-- Settles O45: with a valid schedule ADDRK is AddRoundKey, which works lane by lane. -/
theorem addrkAddsTheRoundKey : Obligations.AddrkAddsTheRoundKey := by
  intro r h s hv
  have hr : r.toNat < 15 := by omega
  exact ⟨addRoundKey s.rk ⟨r.toNat, hr⟩ s.state, exec_eq_of_transform (exec_addrk_valid hr hv),
    fun i => getElem_addRoundKey s.rk ⟨r.toNat, hr⟩ s.state i i.isLt⟩

end Sys2Proof.Machine
end

section
/-! SUPPORT. The block cipher against its round commands and its inverse (44_block_cipher.md R103 to R108), and from them
O48 to O50. -/

namespace Sys2Proof.Machine

/-- Settles O48: both commands look at SCHED_VALID and then apply the cipher to STATE. -/
theorem blockCommandsTransformState : Obligations.BlockCommandsTransformState :=
  fun _ hv => ⟨exec_eq_of_transform (exec_encblock_valid hv), exec_eq_of_transform (exec_decblock_valid hv)⟩

/-! ### Round commands one at a time -/

/-- With the schedule `w` valid, the commands `is` apply `f` to STATE, set ERRCODE to E_NONE and change nothing else. -/
def RunsAs (w : Schedule) (is : List Instr) (f : Block → Block) : Prop :=
  ∀ s : State, s.schedValid = true → s.rk = w → runCommands is s = .next (transformState f s)

theorem RunsAs.append {w : Schedule} {is js : List Instr} {f g : Block → Block} (hf : RunsAs w is f)
    (hg : RunsAs w js g) : RunsAs w (is ++ js) (g ∘ f) := by
  intro s hv hw
  rw [runCommands_append (hf s hv hw), hg (transformState f s) hv hw]
  rfl

/-- A list of groups of commands, each of which applies its function, applies them in order. -/
theorem RunsAs.flatMap {w : Schedule} {is : List Instr} {f : Block → Block} (hf : RunsAs w is f)
    {round : Nat → List Instr} {g : Nat → Block → Block} (ns : List Nat) (hg : ∀ n ∈ ns, RunsAs w (round n) (g n)) :
    RunsAs w (is ++ ns.flatMap round) fun b => ns.foldl (fun x n => g n x) (f b) := by
  induction ns generalizing is f with
  | nil => rwa [List.flatMap_nil, List.append_nil]
  | cons n ns ih =>
    rw [List.flatMap_cons, ← List.append_assoc]
    exact ih (hf.append (hg n (List.mem_cons_self ..))) fun m hm => hg m (List.mem_cons_of_mem n hm)

theorem runsAs_singleton {w : Schedule} {i : Instr} {f : Block → Block}
    (h : ∀ s : State, s.schedValid = true → s.rk = w → exec i s = .next (transformState f s)) : RunsAs w [i] f := by
  intro s hv hw
  rw [runCommands, h s hv hw]
  rfl

theorem runsAs_addrk (w : Schedule) {r : BitVec 4} (h : r.toNat < 15) :
    RunsAs w [.addrk r] (addRoundKey w ⟨r.toNat, h⟩) :=
  runsAs_singleton fun _ hv hw => hw ▸ exec_addrk_valid h hv

theorem runsAs_mixcolumns (w : Schedule) : RunsAs w [.mixcolumns] mixColumns := runsAs_singleton fun _ _ _ => rfl

theorem runsAs_invmixcolumns (w : Schedule) : RunsAs w [.invmixcolumns] invMixColumns :=
  runsAs_singleton fun _ _ _ => rfl

theorem runsAs_subShift (w : Schedule) : RunsAs w [.subbytes, .shiftrows] fun b => shiftRows (subBytes b) :=
  (runsAs_singleton (f := subBytes) fun _ _ _ => rfl).append (runsAs_singleton (f := shiftRows) fun _ _ _ => rfl)

theorem runsAs_invShiftSub (w : Schedule) :
    RunsAs w [.invshiftrows, .invsubbytes] fun b => invSubBytes (invShiftRows b) :=
  (runsAs_singleton (f := invShiftRows) fun _ _ _ => rfl).append
    (runsAs_singleton (f := invSubBytes) fun _ _ _ => rfl)

theorem toNat_ofNat_round {n : Nat} (h : n < 15) : (BitVec.ofNat 4 n).toNat = n := by
  rw [BitVec.toNat_ofNat]
  exact Nat.mod_eq_of_lt (by omega)

/-- The round index of a round command, as the block cipher writes it. -/
theorem runsAs_addrk_ofNat (w : Schedule) {n : Nat} (h : n < 15) :
    RunsAs w [.addrk (BitVec.ofNat 4 n)] (addRoundKey w (Fin.ofNat 15 n)) := by
  have hn := toNat_ofNat_round h
  have hround : (⟨(BitVec.ofNat 4 n).toNat, by omega⟩ : Fin 15) = Fin.ofNat 15 n :=
    Fin.ext (hn.trans (Nat.mod_eq_of_lt h).symm)
  exact hround ▸ runsAs_addrk w (by omega)

theorem runsAs_fullRound (w : Schedule) {n : Nat} (h : n < 13) :
    RunsAs w (fullRound n) fun b => encRound w b (Fin.ofNat 15 (n + 1)) :=
  ((runsAs_subShift w).append (runsAs_mixcolumns w)).append (runsAs_addrk_ofNat w (by omega))

theorem runsAs_fullInvRound (w : Schedule) {n : Nat} (h : n < 13) :
    RunsAs w (fullInvRound n) fun b => decRound w b (Fin.ofNat 15 (13 - n)) :=
  ((runsAs_invShiftSub w).append (runsAs_addrk_ofNat w (by omega))).append (runsAs_invmixcolumns w)

theorem runsAs_roundsOfEncblock (w : Schedule) : RunsAs w roundsOfEncblock fun b => encryptBlock b w := by
  have hrounds := (runsAs_addrk w (r := 0) (by decide)).flatMap (List.range 13) (round := fullRound)
    fun n hn => runsAs_fullRound w (List.mem_range.1 hn)
  exact hrounds.append ((runsAs_subShift w).append (runsAs_addrk w (r := 14) (by decide)))

theorem runsAs_roundsOfDecblock (w : Schedule) : RunsAs w roundsOfDecblock fun b => decryptBlock b w := by
  have hrounds := (runsAs_addrk w (r := 14) (by decide)).flatMap (List.range 13) (round := fullInvRound)
    fun n hn => runsAs_fullInvRound w (List.mem_range.1 hn)
  exact hrounds.append ((runsAs_invShiftSub w).append (runsAs_addrk w (r := 0) (by decide)))

/-- Settles O49: the round commands apply the rounds of the cipher in its order. -/
theorem blockCommandsEqualTheirRounds : Obligations.BlockCommandsEqualTheirRounds :=
  fun s hv => ⟨(runsAs_roundsOfEncblock s.rk s hv rfl).trans (exec_encblock_valid hv).symm,
    (runsAs_roundsOfDecblock s.rk s hv rfl).trans (exec_decblock_valid hv).symm⟩

/-! ### The inverse cipher -/

theorem subBytes_invSubBytes (s : Block) : subBytes (invSubBytes s) = s :=
  block_eq_of_columnByte fun c r => by rw [columnByte_subBytes, columnByte_invSubBytes, sbox_invSbox]

theorem shiftRows_invShiftRows (s : Block) : shiftRows (invShiftRows s) = s :=
  block_eq_of_columnByte fun c r => by rw [columnByte_shiftRows, columnByte_invShiftRows, add_sub_cancel_right]

theorem cyclicProduct_mixCoefficients_inv : cyclicProduct mixCoefficients invMixCoefficients = unitCoefficients := by
  decide

theorem mixColumns_invMixColumns (s : Block) : mixColumns (invMixColumns s) = s := by
  rw [invMixColumns_eq_circulant, mixColumns_eq_circulant, circulant_circulant, cyclicProduct_mixCoefficients_inv,
    circulant_unitCoefficients]

/-- SubBytes and ShiftRows of a round, and their inverses in the order of R104. -/
theorem invSubShift_subShift (s : Block) : invSubBytes (invShiftRows (shiftRows (subBytes s))) = s := by
  rw [invShiftRows_shiftRows, invSubBytes_subBytes]

theorem subShift_invSubShift (s : Block) : shiftRows (subBytes (invSubBytes (invShiftRows s))) = s := by
  rw [subBytes_invSubBytes, shiftRows_invShiftRows]

/-- An inner round of decryption undoes a round of encryption, seen through the SubBytes and ShiftRows of the next. -/
theorem decRound_encRound (w : Schedule) (s : Block) (r : Fin 15) :
    decRound w (shiftRows (subBytes (encRound w s r))) r = shiftRows (subBytes s) := by
  rw [decRound, invSubShift_subShift, encRound, addRoundKey_addRoundKey, invMixColumns_mixColumns]

theorem encRound_decRound (w : Schedule) (s : Block) (r : Fin 15) :
    encRound w (invSubBytes (invShiftRows (decRound w s r))) r = invSubBytes (invShiftRows s) := by
  rw [encRound, subShift_invSubShift, decRound, mixColumns_invMixColumns, addRoundKey_addRoundKey]

/-- The inner rounds of decryption, taken in reverse order, undo the rounds of encryption. -/
theorem foldl_decRound_reverse (w : Schedule) (rs : List (Fin 15)) (s : Block) :
    rs.reverse.foldl (decRound w) (shiftRows (subBytes (rs.foldl (encRound w) s))) = shiftRows (subBytes s) := by
  induction rs generalizing s with
  | nil => rfl
  | cons r rs ih =>
    rw [List.foldl_cons, List.reverse_cons, List.foldl_append, ih, List.foldl_cons, List.foldl_nil, decRound_encRound]

theorem foldl_encRound_reverse (w : Schedule) (rs : List (Fin 15)) (s : Block) :
    rs.reverse.foldl (encRound w) (invSubBytes (invShiftRows (rs.foldl (decRound w) s)))
      = invSubBytes (invShiftRows s) := by
  induction rs generalizing s with
  | nil => rfl
  | cons r rs ih =>
    rw [List.foldl_cons, List.reverse_cons, List.foldl_append, ih, List.foldl_cons, List.foldl_nil, encRound_decRound]

theorem decryptBlock_encryptBlock (b : Block) (w : Schedule) : decryptBlock (encryptBlock b w) w = b := by
  have h := foldl_decRound_reverse w [1, 2, 3, 4, 5, 6, 7, 8, 9, 10, 11, 12, 13] (addRoundKey w 0 b)
  simp only [List.reverse_cons, List.reverse_nil, List.nil_append, List.cons_append] at h
  rw [decryptBlock, encryptBlock]
  rw [addRoundKey_addRoundKey, h, invSubShift_subShift, addRoundKey_addRoundKey]

theorem encryptBlock_decryptBlock (b : Block) (w : Schedule) : encryptBlock (decryptBlock b w) w = b := by
  have h := foldl_encRound_reverse w [13, 12, 11, 10, 9, 8, 7, 6, 5, 4, 3, 2, 1] (addRoundKey w 14 b)
  simp only [List.reverse_cons, List.reverse_nil, List.nil_append, List.cons_append] at h
  rw [encryptBlock, decryptBlock]
  rw [addRoundKey_addRoundKey, h, subShift_invSubShift, addRoundKey_addRoundKey]

/-- Settles O50: the outer AddRoundKeys cancel, and between them each round meets its inverse. -/
theorem blockCipherIsInvertible : Obligations.BlockCipherIsInvertible :=
  fun b w => ⟨decryptBlock_encryptBlock b w, encryptBlock_decryptBlock b w⟩

end Sys2Proof.Machine
end

section
/-! SUPPORT. The loop of `gmul` as a sum over the bits of its second operand (40_gf_multiplier.md R72), the affine form of
SBOX (41_substitution_tables.md R79), and from them O35 and O38. -/

namespace Sys2Proof.Machine

/-- The loop of R72 from iteration `k` on, the first operand having been multiplied by x `k` times. -/
theorem gmulLoop_eq_foldl (a b : Byte) (n k : Nat) (p : Byte) :
    gmulLoop b n k p (xtime^[k] a) =
      (List.range' k n).foldl (fun p k => p ^^^ (if b.getLsbD k then xtime^[k] a else 0)) p := by
  induction n generalizing k p with
  | zero => rfl
  | succ n ih =>
    have hacc : (if b.getLsbD k then p ^^^ xtime^[k] a else p) = p ^^^ (if b.getLsbD k then xtime^[k] a else 0) := by
      split
      · rfl
      · exact BitVec.xor_zero.symm
    rw [gmulLoop, List.range'_succ, List.foldl_cons, ← Function.iterate_succ_apply' xtime, ih, hacc]

/-- Settles O35: the whole loop starts at iteration 0 with an empty sum. -/
theorem gmulIsTheSumOverBits : Obligations.GmulIsTheSumOverBits := by
  intro a b
  rw [List.range_eq_range']
  exact gmulLoop_eq_foldl a b 8 0 0

/-- The affine transform of R79. -/
def sboxAffine (b : Byte) : Byte :=
  b ^^^ b.rotateLeft 1 ^^^ b.rotateLeft 2 ^^^ b.rotateLeft 3 ^^^ b.rotateLeft 4 ^^^ 0x63

/-- The byte that SBOX sends to the affine transform of `b` is the inverse of `b`: checked for each of the 255. -/
theorem gmul_invSbox_sboxAffine : ∀ b : Byte, b ≠ 0 → gmul b (invSbox (sboxAffine b)) = 1 := by decide

/-- Settles O38: the inverse of `b` is unique, so it is the entry of INV_SBOX at the affine transform of `b`. -/
theorem sboxIsTheAffineOfTheInverse : Obligations.SboxIsTheAffineOfTheInverse := by
  rintro x b (⟨rfl, rfl⟩ | h)
  · rfl
  · have hb : b ≠ 0 := by
      rintro rfl
      exact absurd ((gmul_zero_right x).symm.trans h) (by decide)
    have hx : x = invSbox (sboxAffine b) :=
      eq_of_gmul_eq_one (gmul_invSbox_sboxAffine b hb) ((gmul_comm b x).trans h)
    exact (congrArg sbox hx).trans (sbox_invSbox (sboxAffine b))

end Sys2Proof.Machine
end

section
/-! SUPPORT. The words of the key schedule (42_key_schedule.md R83 to R85), and from them O41. -/

namespace Sys2Proof.Machine

/-- A longer run of the expander has the words of a shorter one in front. -/
theorem getD_expandWords {k : Key} {m n i : Nat} (hmn : m ≤ n) (hi : i < m + 8) (d : KeyWord) :
    (expandWords k n).getD i d = (expandWords k m).getD i d := by
  induction n, hmn using Nat.le_induction with
  | base => rfl
  | succ n hmn ih =>
    have hlt : i < (expandWords k n).length := by rw [length_expandWords]; omega
    rw [expandWords, List.getD_append _ _ _ _ hlt, ih]

/-- Word `n` of the schedule, n ≥ 8, is R85's word from the words before it. -/
theorem getD_expandWords_eq_nextWord {k : Key} {m n : Nat} (h8 : 8 ≤ n) (hn : n < m + 8) :
    (expandWords k m).getD n ⟨0, 0, 0, 0⟩ = nextWord (expandWords k m) n := by
  obtain ⟨j, rfl⟩ := Nat.exists_eq_add_of_le' h8
  have hlast : (expandWords k (j + 1)).getD (j + 8) ⟨0, 0, 0, 0⟩ = nextWord (expandWords k j) (j + 8) := by
    rw [expandWords, List.getD_append_right _ _ _ _ (by rw [length_expandWords]), length_expandWords, Nat.sub_self]
    rfl
  have hold {i : Nat} (hi : i < j + 8) :
      (expandWords k m).getD i ⟨0, 0, 0, 0⟩ = (expandWords k j).getD i ⟨0, 0, 0, 0⟩ :=
    getD_expandWords (by omega) hi _
  rw [getD_expandWords (m := j + 1) (by omega) (by omega), hlast, nextWord, nextWord, hold (by omega), hold (by omega)]

theorem keyWord_of_bytes (t : KeyWord) :
    (⟨KeyWord.byte t 0, KeyWord.byte t 1, KeyWord.byte t 2, KeyWord.byte t 3⟩ : KeyWord) = t := rfl

/-- Byte `4n + j` of the schedule is byte `j` of the expander's word `n`. -/
theorem getElem_expand_word (k : Key) {n j : Nat} (hn : n < 60) (hj : j < 4) :
    (expand k)[4 * n + j] = KeyWord.byte ((expandWords k 52).getD n ⟨0, 0, 0, 0⟩) j := by
  have hword : (4 * n + j) / 4 = n := by omega
  have hbyte : (4 * n + j) % 4 = j := by omega
  rw [getElem_expand, hword, hbyte]

/-- Word `n` of the schedule is the expander's word `n`. -/
theorem scheduleWord_expand (k : Key) (n : Fin 60) :
    scheduleWord (expand k) n = (expandWords k 52).getD n ⟨0, 0, 0, 0⟩ := by
  have hfirst := getElem_expand_word k n.isLt (j := 0) (by decide)
  simp only [Nat.add_zero] at hfirst
  rw [scheduleWord, hfirst, getElem_expand_word k n.isLt (by decide), getElem_expand_word k n.isLt (by decide),
    getElem_expand_word k n.isLt (by decide), keyWord_of_bytes]

theorem scheduleWord_expand_eq_nextWord (k : Key) {n : Nat} (h8 : 8 ≤ n) (h60 : n < 60) :
    scheduleWord (expand k) ⟨n, h60⟩ =
      (scheduleWord (expand k) ⟨n - 8, by omega⟩).xor (scheduleCore n (scheduleWord (expand k) ⟨n - 1, by omega⟩)) := by
  simp only [scheduleWord_expand]
  exact getD_expandWords_eq_nextWord h8 h60

theorem getD_expandWords_key (k : Key) (n : Fin 8) (d : KeyWord) : (expandWords k 0).getD n.val d = keyWord k n := by
  fin_cases n <;> rfl

theorem byte_keyWord (k : Key) (n : Fin 8) (j : Fin 4) : KeyWord.byte (keyWord k n) j.val = k[4 * n.val + j.val] := by
  fin_cases j <;> rfl

/-- The key bytes stand in front of the schedule, as they are (R85). -/
theorem getElem_expand_key (k : Key) (i : Fin 32) : (expand k)[i.val] = k[i] := by
  have hbyte := byte_keyWord k ⟨i.val / 4, by omega⟩ ⟨i.val % 4, by omega⟩
  simp only [Nat.div_add_mod] at hbyte
  rw [getElem_expand, getD_expandWords (m := 0) (by omega) (by omega),
    getD_expandWords_key k ⟨i.val / 4, by omega⟩ ⟨0, 0, 0, 0⟩, hbyte]
  rfl

/-- RCON at the indices that a schedule of 60 words reads. -/
theorem rcon_getD : ∀ j : Fin 8,
    rcon.getD j.val 0 = ([0x00, 0x01, 0x02, 0x04, 0x08, 0x10, 0x20, 0x40] : List Byte).getD j.val 0 := by decide

/-- Settles O41: the schedule's words are the expander's, each from the words before it. -/
theorem expandObeysTheRecurrence : Obligations.ExpandObeysTheRecurrence := by
  refine fun k => ⟨getElem_expand_key k, fun n h8 h60 => ?_⟩
  have hrcon := rcon_getD ⟨n / 8, by omega⟩
  dsimp only at hrcon ⊢
  rw [scheduleWord_expand_eq_nextWord k h8 h60, scheduleCore, hrcon]
  split_ifs
  · simp only [KeyWord.xor, subWord, rotWord, BitVec.ofNat_eq_ofNat, BitVec.xor_zero]
  · rfl
  · rfl

end Sys2Proof.Machine
end

section
/-! SUPPORT. `unpad` on a sequence without a valid padding (45_cbc_padding.md R110), and from it O51. -/

namespace Sys2Proof.Machine

/-- The two outcomes of `unpad`: nothing is removed, or a valid padding is. -/
theorem unpad_eq_self_or_padded (D : List Byte) :
    unpad D = D ∨ ∃ (E : List Byte) (p : Nat), 1 ≤ p ∧ p ≤ 16 ∧ D = E ++ List.replicate p (BitVec.ofNat 8 p) := by
  unfold unpad
  split
  · exact .inl rfl
  · next p _ =>
    dsimp only
    split_ifs with h
    · obtain ⟨h1, h16, -, hdrop⟩ := h
      refine .inr ⟨D.take (D.length - p.toNat), p.toNat, h1, h16, ?_⟩
      rw [BitVec.ofNat_toNat, BitVec.setWidth_eq, ← hdrop, List.take_append_drop]
    · exact .inl rfl

/-- Settles O51: a valid padding is removed, and `unpad` removes nothing else. -/
theorem unpadRemovesValidPaddingOnly : Obligations.UnpadRemovesValidPaddingOnly :=
  ⟨fun D _ h1 h16 => unpad_append_padding D h1 h16, fun D hnone => (unpad_eq_self_or_padded D).resolve_right hnone⟩

end Sys2Proof.Machine
end

section
/-! SUPPORT. Byte sequences as blocks and CBC chaining block by block (45_cbc_padding.md R112, R113), and from them O57 to
O59. -/

namespace Sys2Proof.Machine

/-! ### Blocks and bytes -/

theorem blockAt_bytesOf {bs : List Block} {j : Nat} (hj : j < bs.length) : blockAt (bytesOf bs) j = bs[j] := by
  refine Vector.ext fun i hi => ?_
  have hblock : (16 * j + i) / 16 = j := by omega
  have hbyte : (16 * j + i) % 16 = i := by omega
  rw [getElem_blockAt, List.getD_eq_getElem?_getD, getElem?_bytesOf]
  simp only [hblock, hbyte, List.getElem?_eq_getElem hj, Option.map_some, Option.getD_some]

theorem getElem_blocksOf (B : List Byte) {j : Nat} (hj : j < (blocksOf B).length) : (blocksOf B)[j] = blockAt B j := by
  simp only [blocksOf, List.getElem_map, List.getElem_range]

theorem blocksOf_bytesOf (bs : List Block) : blocksOf (bytesOf bs) = bs := by
  refine List.ext_getElem (by simp) fun j h1 h2 => ?_
  rw [getElem_blocksOf, blockAt_bytesOf h2]

/-- Whole blocks put together again are the sequence. -/
theorem bytesOf_blocksOf {B : List Byte} (h : B.length % 16 = 0) : bytesOf (blocksOf B) = B := by
  refine List.ext_getElem? fun k => ?_
  rw [getElem?_bytesOf]
  by_cases hk : k < B.length
  · have hblock : k / 16 < (blocksOf B).length := by rw [length_blocksOf]; omega
    rw [List.getElem?_eq_getElem hblock, Option.map_some, getElem_blocksOf, getElem_blockAt, Nat.div_add_mod,
      List.getD_eq_getElem _ _ hk, List.getElem?_eq_getElem hk]
  · have hblock : (blocksOf B).length ≤ k / 16 := by rw [length_blocksOf]; omega
    rw [List.getElem?_eq_none hblock, List.getElem?_eq_none (Nat.le_of_not_lt hk), Option.map_none]

theorem xorBlock_xorBlock (a b : Block) : xorBlock (xorBlock a b) b = a := by
  refine Vector.ext fun i hi => ?_
  rw [getElem_xorBlock, getElem_xorBlock, BitVec.xor_assoc, BitVec.xor_self, BitVec.xor_zero]

/-! ### CBC encryption. `C j` is the chaining value before block `j`. -/

/-- The chaining values of R112: the initial value and then the ciphertext blocks. -/
def chainBefore (w : Schedule) (ch : Block) (ps : List Block) (j : Nat) : Block :=
  (ch :: (cbcEncrypt w ch ps).1).getD j zeroBlock

theorem chainBefore_cons_succ (w : Schedule) (ch p : Block) (ps : List Block) (j : Nat) :
    chainBefore w ch (p :: ps) (j + 1) = chainBefore w (encryptBlock (xorBlock p ch) w) ps j := rfl

theorem chainBefore_succ (w : Schedule) (ch : Block) {ps : List Block} {j : Nat} (hj : j < ps.length) :
    chainBefore w ch ps (j + 1) = encryptBlock (xorBlock ps[j] (chainBefore w ch ps j)) w := by
  induction ps generalizing ch j with
  | nil => exact absurd hj (Nat.not_lt_zero j)
  | cons p ps ih =>
    cases j with
    | zero => rfl
    | succ j =>
      rw [chainBefore_cons_succ, chainBefore_cons_succ, ih _ (Nat.lt_of_succ_lt_succ hj), List.getElem_cons_succ]

theorem cbcEncrypt_last (w : Schedule) (ch : Block) (ps : List Block) :
    (cbcEncrypt w ch ps).2 = chainBefore w ch ps ps.length := by
  induction ps generalizing ch with
  | nil => rfl
  | cons p ps ih => exact ih _

theorem getElem?_cbcEncrypt (w : Schedule) (ch : Block) {ps : List Block} {j : Nat} (hj : j < ps.length) :
    (cbcEncrypt w ch ps).1[j]? = some (chainBefore w ch ps (j + 1)) := by
  have hj' : j < (cbcEncrypt w ch ps).1.length := by rwa [length_cbcEncrypt]
  rw [chainBefore, List.getD_cons_succ, List.getD_eq_getElem _ _ hj', List.getElem?_eq_getElem hj']

/-- Settles O57: the chaining values are the zero block and the ciphertext blocks, and OUTBUF lists the latter. -/
theorem cbcencChainsCiphertext : Obligations.CbcencChainsCiphertext := by
  intro s hk hc
  have hlen : (blocksOf (pad (inputBytes s))).length = s.inlen.toNat / 16 + 1 := by
    rw [length_blocksOf, length_padded_input, Nat.mul_div_cancel_left _ (by decide)]
  have hlast : (encryptRun s).2 =
      chainBefore (expand s.key) zeroBlock (blocksOf (pad (inputBytes s))) (s.inlen.toNat / 16 + 1) := by
    rw [encryptRun, cbcEncrypt_last, hlen]
  refine ⟨Memory.ofBytes 0 (bytesOf (encryptRun s).1),
    chainBefore (expand s.key) zeroBlock (blocksOf (pad (inputBytes s))), rfl, fun j hj => ?chain, fun k => ?bytes,
    ?exec⟩
  case chain => rw [chainBefore_succ _ _ (hlen ▸ hj), getElem_blocksOf]
  case bytes =>
    rw [Memory.byte?_ofBytes_zero]
    split_ifs with hk
    · rw [getElem?_bytesOf, encryptRun, getElem?_cbcEncrypt _ _ (by omega), Option.map_some]
    · exact List.getElem?_eq_none (by rw [length_encryptRun]; omega)
  case exec => rw [exec_cbcenc_valid hk hc, cbcEncryptInput_eq, length_encryptRun, hlast]; rfl

/-! ### CBC decryption -/

theorem getElem?_cbcDecrypt (w : Schedule) (ch : Block) (it : Option Block) (cs : List Block) (j : Nat) :
    (cbcDecrypt w ch it cs).1[j]? =
      cs[j]?.map fun c => xorBlock (decryptBlock c w) ((ch :: cs).getD j zeroBlock) := by
  induction cs generalizing ch it j with
  | nil => rfl
  | cons c cs ih =>
    cases j with
    | zero => rfl
    | succ j =>
      rw [cbcDecrypt]
      simp only [List.getElem?_cons_succ, List.getD_cons_succ]
      exact ih c _ j

theorem cbcDecrypt_chain (w : Schedule) (ch : Block) (it : Option Block) (cs : List Block) :
    (cbcDecrypt w ch it cs).2.1 = (ch :: cs).getD cs.length zeroBlock := by
  induction cs generalizing ch it with
  | nil => rfl
  | cons c cs ih => exact ih c _

theorem cbcDecrypt_intermediate (w : Schedule) (ch : Block) (it : Option Block) (cs : List Block) :
    (cbcDecrypt w ch it cs).2.2 =
      if cs.length = 0 then it else some (decryptBlock ((ch :: cs).getD cs.length zeroBlock) w) := by
  induction cs generalizing ch it with
  | nil => rfl
  | cons c cs ih =>
    rw [cbcDecrypt]
    refine (ih c _).trans ?_
    cases cs <;> rfl

/-- The chaining values of R113: the zero block and then the ciphertext blocks of `B`. -/
def cipherBefore (B : List Byte) (j : Nat) : Block := if j = 0 then zeroBlock else blockAt B (j - 1)

theorem getD_zeroBlock_cons_blocksOf (B : List Byte) {j : Nat} (hj : j ≤ B.length / 16) :
    (zeroBlock :: blocksOf B).getD j zeroBlock = cipherBefore B j := by
  cases j with
  | zero => rfl
  | succ j =>
    have hj' : j < (blocksOf B).length := by rwa [length_blocksOf]
    rw [List.getD_cons_succ, List.getD_eq_getElem _ _ hj', getElem_blocksOf]
    rfl

/-- Plaintext block `j` of CBCDEC (R113). -/
theorem blockAt_decryptRun (s : State) {j : Nat} (hj : j < s.inlen.toNat / 16) :
    blockAt (bytesOf (decryptRun s).1) j =
      xorBlock (decryptBlock (cipherBefore (inputBytes s) (j + 1)) (expand s.key)) (cipherBefore (inputBytes s) j) := by
  have hin : j < (blocksOf (inputBytes s)).length := by rwa [length_blocksOf, length_inputBytes]
  have hout : j < (decryptRun s).1.length := by rwa [decryptRun, length_cbcDecrypt]
  have hblock : (decryptRun s).1[j]? = some (xorBlock (decryptBlock (blockAt (inputBytes s) j) (expand s.key))
      (cipherBefore (inputBytes s) j)) := by
    rw [decryptRun, getElem?_cbcDecrypt, List.getElem?_eq_getElem hin, Option.map_some, getElem_blocksOf,
      getD_zeroBlock_cons_blocksOf _ (by rw [length_inputBytes]; omega)]
  rw [blockAt_bytesOf hout]
  exact Option.some.inj ((List.getElem?_eq_getElem hout).symm.trans hblock)

/-- CHAIN after CBCDEC: the last ciphertext block (R115). -/
theorem decryptRun_chain (s : State) : (decryptRun s).2.1 = cipherBefore (inputBytes s) (s.inlen.toNat / 16) := by
  rw [decryptRun, cbcDecrypt_chain, length_blocksOf, length_inputBytes,
    getD_zeroBlock_cons_blocksOf _ (by rw [length_inputBytes])]

/-- STATE after CBCDEC: the last block that was decrypted, if there was one (R115). -/
theorem decryptRun_state (s : State) : (decryptRun s).2.2.getD s.state =
    if s.inlen.toNat / 16 = 0 then s.state
    else decryptBlock (cipherBefore (inputBytes s) (s.inlen.toNat / 16)) (expand s.key) := by
  rw [decryptRun, cbcDecrypt_intermediate, length_blocksOf, length_inputBytes,
    getD_zeroBlock_cons_blocksOf _ (by rw [length_inputBytes])]
  split_ifs <;> rfl

/-- Settles O58: block by block, with the last chaining value and the last decrypted block. -/
theorem cbcdecUnchainsPlaintext : Obligations.CbcdecUnchainsPlaintext := by
  intro s hk hc ha
  refine ⟨_, bytesOf (decryptRun s).1, length_decryptRun ha, fun j hj => blockAt_decryptRun s hj,
    Memory.byte?_ofBytes_zero (unpad (bytesOf (decryptRun s).1)), ?exec⟩
  case exec => rw [exec_cbcdec_valid hk hc ha, cbcDecryptInput_eq, decryptRun_chain, decryptRun_state]; rfl

/-! ### The input of a buffer command, byte by byte -/

/-- An input whose bytes are all written is those bytes (R32). -/
theorem inputBytes_eq_of_byte? {s : State} {v : List Byte} (hlen : s.inlen.toNat = v.length)
    (h : ∀ k, k < v.length → s.inbuf.byte? k = v[k]?) : inputBytes s = v := by
  refine List.ext_getElem? fun k => ?_
  rw [getElem?_inputBytes, hlen]
  split_ifs with hk
  · rw [List.getElem?_eq_getElem hk, Memory.draw_of_byte? ((h k hk).trans (List.getElem?_eq_getElem hk))]
  · exact (List.getElem?_eq_none (Nat.le_of_not_lt hk)).symm

theorem getElem?_inputBytes_of_written {s : State} {k : Nat} (hk : k < s.inlen.toNat)
    (h : (s.inbuf.byte? k).isSome = true) : (inputBytes s)[k]? = s.inbuf.byte? k := by
  obtain ⟨b, hb⟩ := Option.isSome_iff_exists.1 h
  rw [getElem?_inputBytes, if_pos hk, Memory.draw_of_byte? hb, hb]

/-! ### The round trip -/

theorem cbcDecrypt_cbcEncrypt (w : Schedule) (ch : Block) (it : Option Block) (ps : List Block) :
    (cbcDecrypt w ch it (cbcEncrypt w ch ps).1).1 = ps := by
  induction ps generalizing ch it with
  | nil => rfl
  | cons p ps ih =>
    rw [cbcEncrypt, cbcDecrypt]
    simp only [decryptBlock_encryptBlock, xorBlock_xorBlock, ih]

/-- CBCDEC on the ciphertext of `s` under the same key finds the padded plaintext of `s` (R118). -/
theorem decryptRun_of_ciphertext {s u : State} (hkey : u.key = s.key)
    (hin : inputBytes u = bytesOf (encryptRun s).1) : bytesOf (decryptRun u).1 = pad (inputBytes s) := by
  have haligned : (pad (inputBytes s)).length % 16 = 0 := by rw [length_pad, Nat.mul_mod_right]
  rw [decryptRun, hin, hkey, blocksOf_bytesOf, encryptRun, cbcDecrypt_cbcEncrypt, bytesOf_blocksOf haligned]

/-- Settles O59: the ciphertext is CBCDEC's input, it is decrypted to the padded plaintext, and `unpad` undoes `pad`. -/
theorem cbcRoundTrip : Obligations.CbcRoundTrip := by
  intro s t u hk hc hwritten ht hkey huk hulen hcopy
  have hcap := length_padded_le hc
  have hbounds := bufBytes_bounds
  obtain rfl := Host.Outcome.next.inj ((exec_cbcenc_valid hk hc).symm.trans ht)
  rw [cbcEncryptInput_eq] at hulen hcopy
  simp only [length_encryptRun, Memory.byte?_ofBytes_zero] at hulen hcopy
  have hlen : u.inlen.toNat = 16 * (s.inlen.toNat / 16 + 1) := by
    rw [hulen, BitVec.toNat_ofNat]
    exact Nat.mod_eq_of_lt (by omega)
  rw [← hulen, hlen] at hcopy
  have hin : inputBytes u = bytesOf (encryptRun s).1 :=
    inputBytes_eq_of_byte? (hlen.trans (length_encryptRun s).symm) fun k hk => hcopy k (length_encryptRun s ▸ hk)
  have hplain : unpad (bytesOf (decryptRun u).1) = inputBytes s := by
    rw [decryptRun_of_ciphertext hkey hin, unpad_pad]
  refine ⟨_, exec_cbcdec_valid huk (by omega) (by omega), ?outlen, fun k hk => ?outbuf⟩ <;>
    rw [cbcDecryptInput_eq, hplain]
  case outlen => rw [length_inputBytes, BitVec.ofNat_toNat, BitVec.setWidth_eq]
  case outbuf => rw [Memory.byte?_ofBytes_zero, getElem?_inputBytes_of_written hk (hwritten k hk)]

end Sys2Proof.Machine
end

section
/-! SUPPORT. The output of a buffer command as a function of KEY, KEYLEN and its input (45_cbc_padding.md R112 to R118),
and from it O60. -/

namespace Sys2Proof.Machine

/-- The result code and the output of each buffer command on the input `B`, in the order of R131's tests. -/
def bufferResult (key : Key) (keylen : Word) (B : List Byte) : Instr → BitVec 4 × List Byte
  | .cbcenc =>
    if Config.bufBytes ≤ B.length then (eCapacity, [])
    else if keylen ≠ 32 then (eNone, [])
    else (eNone, bytesOf (cbcEncrypt (expand key) zeroBlock (blocksOf (pad B))).1)
  | .cbcdec =>
    if Config.bufBytes < B.length then (eCapacity, [])
    else if keylen ≠ 32 ∨ B.length % 16 ≠ 0 then (eNone, [])
    else (eNone, unpad (bytesOf (cbcDecrypt (expand key) zeroBlock none (blocksOf B)).1))
  | .pad => if Config.bufBytes ≤ B.length then (eCapacity, []) else (eNone, pad B)
  | .unpad => if Config.bufBytes < B.length then (eCapacity, []) else (eNone, unpad B)
  | _ => (eNone, [])

/-- The state `t` shows the result code and the output `r`. -/
structure Shows (r : BitVec 4 × List Byte) (t : State) : Prop where
  errcode : t.errcode = r.1
  outlen : t.outlen = BitVec.ofNat 32 r.2.length
  outbuf : ∀ k, k < r.2.length → t.outbuf.byte? k = r.2[k]?

theorem shows_empty (code : BitVec 4) (s : State) : Shows (code, []) (raise code (emptyOutput s)) :=
  ⟨rfl, rfl, fun k hk => absurd hk (Nat.not_lt_zero k)⟩

theorem shows_withOutput (v : List Byte) (s : State) : Shows (eNone, v) (withOutput v s) :=
  ⟨rfl, rfl, fun k _ => Memory.byte?_ofBytes_zero v k⟩

theorem exec_cbcenc_shows {s t : State} (h : exec .cbcenc s = .next t) :
    Shows (bufferResult s.key s.keylen (inputBytes s) .cbcenc) t := by
  rw [bufferResult, length_inputBytes]
  split_ifs with hc hk
  · obtain rfl := Host.Outcome.next.inj ((exec_cbcenc_overCapacity hc).symm.trans h)
    exact shows_empty _ s
  · obtain rfl := Host.Outcome.next.inj ((exec_cbcenc_invalid (Nat.lt_of_not_le hc) hk).symm.trans h)
    exact shows_empty _ s
  · obtain rfl := Host.Outcome.next.inj ((exec_cbcenc_valid (not_not.1 hk) (Nat.lt_of_not_le hc)).symm.trans h)
    rw [cbcEncryptInput_eq_withCbcOutput]
    exact shows_withOutput _ _

theorem exec_cbcdec_shows {s t : State} (h : exec .cbcdec s = .next t) :
    Shows (bufferResult s.key s.keylen (inputBytes s) .cbcdec) t := by
  rw [bufferResult, length_inputBytes]
  split_ifs with hc hk
  · obtain rfl := Host.Outcome.next.inj ((exec_cbcdec_overCapacity hc).symm.trans h)
    exact shows_empty _ s
  · obtain rfl := Host.Outcome.next.inj ((exec_cbcdec_invalid (Nat.le_of_not_lt hc) hk).symm.trans h)
    exact shows_empty _ s
  · obtain ⟨hk, ha⟩ : s.keylen = 32 ∧ s.inlen.toNat % 16 = 0 := by simpa using hk
    obtain rfl := Host.Outcome.next.inj ((exec_cbcdec_valid hk (Nat.le_of_not_lt hc) ha).symm.trans h)
    rw [cbcDecryptInput_eq_withCbcOutput]
    exact shows_withOutput _ _

theorem exec_pad_shows {s t : State} (h : exec .pad s = .next t) :
    Shows (bufferResult s.key s.keylen (inputBytes s) .pad) t := by
  rw [bufferResult, length_inputBytes]
  split_ifs with hc
  · obtain rfl := Host.Outcome.next.inj ((exec_pad_overCapacity hc).symm.trans h)
    exact shows_empty _ s
  · obtain rfl := Host.Outcome.next.inj ((exec_pad_valid (Nat.lt_of_not_le hc)).symm.trans h)
    exact shows_withOutput _ s

theorem exec_unpad_shows {s t : State} (h : exec .unpad s = .next t) :
    Shows (bufferResult s.key s.keylen (inputBytes s) .unpad) t := by
  rw [bufferResult, length_inputBytes]
  split_ifs with hc
  · obtain rfl := Host.Outcome.next.inj ((exec_unpad_overCapacity hc).symm.trans h)
    exact shows_empty _ s
  · obtain rfl := Host.Outcome.next.inj ((exec_unpad_valid (Nat.le_of_not_lt hc)).symm.trans h)
    exact shows_withOutput _ s

/-- Every buffer command shows its result. -/
theorem exec_shows {i : Instr} (hi : i ∈ [.cbcenc, .cbcdec, .pad, .unpad]) {s t : State} (h : exec i s = .next t) :
    Shows (bufferResult s.key s.keylen (inputBytes s) i) t := by
  have hi : i = .cbcenc ∨ i = .cbcdec ∨ i = .pad ∨ i = .unpad := by simpa using hi
  obtain rfl | rfl | rfl | rfl := hi
  · exact exec_cbcenc_shows h
  · exact exec_cbcdec_shows h
  · exact exec_pad_shows h
  · exact exec_unpad_shows h

/-- Two states that show the same result agree on all that the host can read of it. -/
theorem Shows.agree {r : BitVec 4 × List Byte} {t t' : State} (h : Shows r t) (h' : Shows r t') :
    t.outlen = t'.outlen ∧ t.errcode = t'.errcode ∧ ∀ k, k < t.outlen.toNat → t.outbuf.byte? k = t'.outbuf.byte? k := by
  refine ⟨h.outlen.trans h'.outlen.symm, h.errcode.trans h'.errcode.symm, fun k hk => ?_⟩
  rw [h.outlen, BitVec.toNat_ofNat] at hk
  have hk := Nat.lt_of_lt_of_le hk (Nat.mod_le _ _)
  rw [h.outbuf k hk, h'.outbuf k hk]

/-- Settles O60: the two states have the same input, so their commands show the same result. -/
theorem bufferCommandsAreDeterministic : Obligations.BufferCommandsAreDeterministic := by
  intro i s s' t t' hi hkey hkeylen hinlen hin ht ht'
  have hinput : inputBytes s' = inputBytes s := by
    refine inputBytes_eq_of_byte? (by rw [length_inputBytes, hinlen]) fun k hk => ?_
    rw [length_inputBytes] at hk
    obtain ⟨hwritten, hsame⟩ := hin k hk
    rw [getElem?_inputBytes_of_written hk hwritten, hsame]
  have h' := exec_shows hi ht'
  rw [← hkey, ← hkeylen, hinput] at h'
  exact (exec_shows hi ht).agree h'

end Sys2Proof.Machine
end
